-- ==== Sys2Proof/Word.lean ====
section
/-! DEFINITION. The widths the spec names (00_scope.md R8): bytes, instruction words, nibbles, 12-bit
addresses, register indices. -/
namespace Sys2Proof

/-- Eight bits: a general register, a timer, a memory byte, an immediate `kk` (R8, R20). -/
abbrev Byte := BitVec 8

/-- Sixteen bits: an instruction word, `I`, `pc`, a stack entry, `fault_info` (R8, R20). -/
abbrev Word := BitVec 16

/-- Four bits: one nibble of an instruction word (R9), the immediate `n`. -/
abbrev Nibble := BitVec 4

/-- Twelve bits: an address of memory (R60), the field `nnn` (R92). -/
abbrev Addr := BitVec 12

/-- A 4-bit index field `x` or `y`: every value names one of V0 to VF (R22, R92). -/
abbrev RegIndex := BitVec 4

end Sys2Proof
end

