-- ==== Sys2Proof/Config.lean ====
section
/-! DEFINITION. The parameters of 00_scope.md R5 and the one free value of the spec, the draw of `RND`. -/
namespace Sys2Proof

/-- The open parameters a rule of the spec depends on (R5): "the model takes it as an argument". The state
holds one value of this type, which no step changes. -/
structure Config where
  /-- `FONT_BASE`: the address of glyph 0 for `LD F, Vx` (R5, R192). -/
  fontBase : Addr
  deriving DecidableEq, Repr

/-- R5's default: `FONT_BASE` = 0x000. DESIGN CHOICE (log 3), unsafe for a claim that rests on the number. -/
def Config.default : Config := { fontBase := 0x000 }

/-- The draws `rnd` (R35 (a), R171, D30): the n-th draw is any byte. It has no body, so nothing can be
proved of a value of it. A free value (log 2), safe. -/
opaque Config.rnd : Nat → Byte

/-- `MEM_SIZE` (R5): addresses 0x000 to 0xFFF. -/
abbrev memSize : Nat := 4096

/-- `PC_MAX` (R5): the highest legal pc. -/
abbrev pcMax : Nat := 0xFFE

/-- `RESET_PC` (R5, R39). -/
abbrev resetPc : Word := 0x200

/-- `FB_W` (R5). -/
abbrev fbWidth : Nat := 128

/-- `FB_H` (R5). -/
abbrev fbHeight : Nat := 64

end Sys2Proof
end

