-- ==== Sys2Proof/Syntax.lean ====
section
/-! DEFINITION. The 36 instructions of 30_encoding.md R94 (spec/opcode_table.json), one constructor a row, in
the table's order. Operands are the fields of R92 at their own widths. -/
namespace Sys2Proof

/-- One admitted instruction with the operand fields its format uses (R93, R94). `shr` and `shl` carry the `y`
nibble that the instruction ignores (R96), so that an instruction names exactly one word. -/
inductive Instr where
  /-- `CLS`, 00E0 (R210) -/
  | cls
  /-- `RET`, 00EE (R140) -/
  | ret
  /-- `LOW`, 00FE (R211) -/
  | low
  /-- `HIGH`, 00FF (R212) -/
  | high
  /-- `JP addr`, 1nnn (R141) -/
  | jp (nnn : Addr)
  /-- `CALL addr`, 2nnn (R142) -/
  | call (nnn : Addr)
  /-- `SE Vx, byte`, 3xkk (R143) -/
  | seImm (x : RegIndex) (kk : Byte)
  /-- `SNE Vx, byte`, 4xkk (R144) -/
  | sneImm (x : RegIndex) (kk : Byte)
  /-- `SE Vx, Vy`, 5xy0 (R145) -/
  | seReg (x y : RegIndex)
  /-- `LD Vx, byte`, 6xkk (R160) -/
  | ldImm (x : RegIndex) (kk : Byte)
  /-- `ADD Vx, byte`, 7xkk (R161) -/
  | addImm (x : RegIndex) (kk : Byte)
  /-- `LD Vx, Vy`, 8xy0 (R162) -/
  | ldReg (x y : RegIndex)
  /-- `OR Vx, Vy`, 8xy1 (R163) -/
  | orReg (x y : RegIndex)
  /-- `AND Vx, Vy`, 8xy2 (R164) -/
  | andReg (x y : RegIndex)
  /-- `XOR Vx, Vy`, 8xy3 (R165) -/
  | xorReg (x y : RegIndex)
  /-- `ADD Vx, Vy`, 8xy4 (R166) -/
  | addReg (x y : RegIndex)
  /-- `SUB Vx, Vy`, 8xy5 (R167) -/
  | sub (x y : RegIndex)
  /-- `SHR Vx`, 8xy6 (R168); `y` is ignored -/
  | shr (x y : RegIndex)
  /-- `SUBN Vx, Vy`, 8xy7 (R169) -/
  | subn (x y : RegIndex)
  /-- `SHL Vx`, 8xyE (R170); `y` is ignored -/
  | shl (x y : RegIndex)
  /-- `SNE Vx, Vy`, 9xy0 (R146) -/
  | sneReg (x y : RegIndex)
  /-- `LD I, addr`, Annn (R190) -/
  | ldI (nnn : Addr)
  /-- `JP V0, addr`, Bnnn (R147) -/
  | jpV0 (nnn : Addr)
  /-- `RND Vx, byte`, Cxkk (R171) -/
  | rnd (x : RegIndex) (kk : Byte)
  /-- `DRW Vx, Vy, nibble`, Dxyn (R213) -/
  | drw (x y : RegIndex) (n : Nibble)
  /-- `SKP Vx`, Ex9E (R230) -/
  | skp (x : RegIndex)
  /-- `SKNP Vx`, ExA1 (R231) -/
  | sknp (x : RegIndex)
  /-- `LD Vx, DT`, Fx07 (R232) -/
  | ldVxDt (x : RegIndex)
  /-- `LD Vx, K`, Fx0A (R233) -/
  | ldVxK (x : RegIndex)
  /-- `LD DT, Vx`, Fx15 (R234) -/
  | ldDtVx (x : RegIndex)
  /-- `LD ST, Vx`, Fx18 (R235) -/
  | ldStVx (x : RegIndex)
  /-- `ADD I, Vx`, Fx1E (R191) -/
  | addI (x : RegIndex)
  /-- `LD F, Vx`, Fx29 (R192) -/
  | ldF (x : RegIndex)
  /-- `LD B, Vx`, Fx33 (R193) -/
  | ldB (x : RegIndex)
  /-- `LD [I], Vx`, Fx55 (R194) -/
  | storeRegs (x : RegIndex)
  /-- `LD Vx, [I]`, Fx65 (R195) -/
  | loadRegs (x : RegIndex)
  deriving DecidableEq, Repr

end Sys2Proof
end

