-- ==== Sys2Proof/WellFormed.lean ====
section
/-! DEFINITION. Which terms stand for something the spec admits. Every operand field has its width in its type
(R92) and no field value is reserved (30_encoding.md R96), so every `Instr` is well formed; what needs a check
is the parameter `FONT_BASE`, a memory's canonical form and a host request's arguments. -/
namespace Sys2Proof

/-- "A word either selects exactly one instruction of rule R94 or is a decode miss"; an ignored nibble "is not
reserved: every value is legal" (R96). The field widths are in the types, so no instruction term is ill formed. -/
def Instr.wf : Instr → Bool
  | .cls | .ret | .low | .high => true
  | .jp _ | .call _ | .ldI _ | .jpV0 _ => true
  | .seImm _ _ | .sneImm _ _ | .ldImm _ _ | .addImm _ _ | .rnd _ _ => true
  | .seReg _ _ | .sneReg _ _ | .ldReg _ _ | .orReg _ _ | .andReg _ _ | .xorReg _ _ => true
  | .addReg _ _ | .sub _ _ | .shr _ _ | .subn _ _ | .shl _ _ => true
  | .drw _ _ _ => true
  | .skp _ | .sknp _ | .ldVxDt _ | .ldVxK _ | .ldDtVx _ | .ldStVx _ => true
  | .addI _ | .ldF _ | .ldB _ | .storeRegs _ | .loadRegs _ => true

/-- "`FONT_BASE` must satisfy FONT_BASE + 79 <= 0xFFF" (43_index_memory.md R192). -/
def Config.wf (c : Config) : Bool := c.fontBase.toNat + 79 ≤ 0xFFF

/-- A key index the interface allows: "key indices 0–15" (60_exceptions.md R264, U11). -/
def keyIndexOk (k : Nat) : Bool := k < 16

/-- An address a disassembly query may name: even, 0x000 to 0xFFE (40_dispatch.md R130, U10). -/
def disasmAddrOk (a : Nat) : Bool := a % 2 == 0 && a ≤ pcMax

/-- Coordinates of a pixel of the buffer: px 0 to 127, py 0 to 63 (10_state.md R41, U9). -/
def pixelOk (px py : Nat) : Bool := px < fbWidth && py < fbHeight

/-- `len + addr <= 4096`: a byte string that LOAD accepts (70_reset_and_hazards.md R291). -/
def loadFits (bytes : List Byte) (addr : Nat) : Bool := bytes.length + addr ≤ memSize

/-- The canonical form of a memory: addresses strictly rising and below `memSize`, no entry equal to 0x00, which
is what an unlisted address reads as. `low` is the least address the first entry may have. -/
def cellsWf (low : Nat) : List Host.Cell → Bool
  | [] => true
  | (a, v) :: rest => low ≤ a && a < memSize && v != 0 && cellsWf (a + 1) rest

end Sys2Proof
end

