-- ==== Sys2Proof/Decode.lean ====
section
/-! DEFINITION. The word's nibbles and fields (30_encoding.md R91, R92), the registered patterns (R94), the
four-level dispatch tree and its lookup (40_dispatch.md R121 to R123), the flat mask-and-match scan the source
allows beside it (R124), the decoder on words and on bytes, and the encoder. -/
namespace Sys2Proof

/-! ### Nibbles and fields -/

/-- `n0 = w[15:12]` (R91). -/
def nibble0 (w : Word) : Nibble := w.extractLsb' 12 4

/-- `n1 = w[11:8]` (R91). -/
def nibble1 (w : Word) : Nibble := w.extractLsb' 8 4

/-- `n2 = w[7:4]` (R91). -/
def nibble2 (w : Word) : Nibble := w.extractLsb' 4 4

/-- `n3 = w[3:0]` (R91). -/
def nibble3 (w : Word) : Nibble := w.extractLsb' 0 4

/-- The operand structure, filled from every word the same way whatever the opcode (R92). -/
structure Fields where
  addr12 : Addr
  x : RegIndex
  y : RegIndex
  imm8 : Byte
  small4 : Nibble
  deriving DecidableEq, Repr

/-- `addr12 = n1n2n3`, `x = n1`, `y = n2`, `imm8 = n2n3`, `small4 = n3` (R92). -/
def Fields.ofWord (w : Word) : Fields where
  addr12 := w.extractLsb' 0 12
  x := nibble1 w
  y := nibble2 w
  imm8 := w.extractLsb' 0 8
  small4 := nibble3 w

/-! ### Patterns and handlers -/

/-- A key of the dispatch structure: a nibble value or the wildcard (R121). -/
inductive Key where
  | exact (v : Nibble)
  | any
  deriving DecidableEq, Repr

/-- The bits of a nibble position that a key fixes (R93). -/
def Key.mask : Key → Nibble
  | .exact _ => 0xF
  | .any => 0x0

/-- The value a key fixes, 0 where it fixes none (R93). -/
def Key.fixed : Key → Nibble
  | .exact v => v
  | .any => 0x0

/-- Four nibble positions, each fixed or the wildcard (R12). -/
structure Pattern where
  k0 : Key
  k1 : Key
  k2 : Key
  k3 : Key
  deriving DecidableEq, Repr

/-- The mask of R93: a 1 in every bit of a fixed nibble. -/
def Pattern.mask (p : Pattern) : Word := p.k0.mask ++ p.k1.mask ++ p.k2.mask ++ p.k3.mask

/-- The match value of R94: the fixed nibbles, 0 elsewhere. -/
def Pattern.matchBits (p : Pattern) : Word := p.k0.fixed ++ p.k1.fixed ++ p.k2.fixed ++ p.k3.fixed

/-- "an instruction word `w` matches a pattern when `w and mask = match`" (R93). -/
def Pattern.matches (p : Pattern) (w : Word) : Bool := w &&& p.mask == p.matchBits

/-- What a pattern is registered for: the handler of one row of R94. -/
inductive Opcode where
  | cls | ret | low | high | jp | call | seImm | sneImm | seReg | ldImm | addImm | ldReg
  | orReg | andReg | xorReg | addReg | sub | shr | subn | shl | sneReg | ldI | jpV0 | rnd
  | drw | skp | sknp | ldVxDt | ldVxK | ldDtVx | ldStVx | addI | ldF | ldB | storeRegs | loadRegs
  deriving DecidableEq, Repr

/-- The 36 registered handlers, in the order of R94. -/
def Opcode.all : List Opcode :=
  [.cls, .ret, .low, .high, .jp, .call, .seImm, .sneImm, .seReg, .ldImm, .addImm, .ldReg,
   .orReg, .andReg, .xorReg, .addReg, .sub, .shr] ++
  [.subn, .shl, .sneReg, .ldI, .jpV0, .rnd, .drw, .skp, .sknp, .ldVxDt, .ldVxK, .ldDtVx,
   .ldStVx, .addI, .ldF, .ldB, .storeRegs, .loadRegs]

/-- The pattern each handler is registered under: the first column of R94. -/
def Opcode.pattern : Opcode → Pattern
  | .cls => ⟨.exact 0x0, .exact 0x0, .exact 0xE, .exact 0x0⟩
  | .ret => ⟨.exact 0x0, .exact 0x0, .exact 0xE, .exact 0xE⟩
  | .low => ⟨.exact 0x0, .exact 0x0, .exact 0xF, .exact 0xE⟩
  | .high => ⟨.exact 0x0, .exact 0x0, .exact 0xF, .exact 0xF⟩
  | .jp => ⟨.exact 0x1, .any, .any, .any⟩
  | .call => ⟨.exact 0x2, .any, .any, .any⟩
  | .seImm => ⟨.exact 0x3, .any, .any, .any⟩
  | .sneImm => ⟨.exact 0x4, .any, .any, .any⟩
  | .seReg => ⟨.exact 0x5, .any, .any, .exact 0x0⟩
  | .ldImm => ⟨.exact 0x6, .any, .any, .any⟩
  | .addImm => ⟨.exact 0x7, .any, .any, .any⟩
  | .ldReg => ⟨.exact 0x8, .any, .any, .exact 0x0⟩
  | .orReg => ⟨.exact 0x8, .any, .any, .exact 0x1⟩
  | .andReg => ⟨.exact 0x8, .any, .any, .exact 0x2⟩
  | .xorReg => ⟨.exact 0x8, .any, .any, .exact 0x3⟩
  | .addReg => ⟨.exact 0x8, .any, .any, .exact 0x4⟩
  | .sub => ⟨.exact 0x8, .any, .any, .exact 0x5⟩
  | .shr => ⟨.exact 0x8, .any, .any, .exact 0x6⟩
  | .subn => ⟨.exact 0x8, .any, .any, .exact 0x7⟩
  | .shl => ⟨.exact 0x8, .any, .any, .exact 0xE⟩
  | .sneReg => ⟨.exact 0x9, .any, .any, .exact 0x0⟩
  | .ldI => ⟨.exact 0xA, .any, .any, .any⟩
  | .jpV0 => ⟨.exact 0xB, .any, .any, .any⟩
  | .rnd => ⟨.exact 0xC, .any, .any, .any⟩
  | .drw => ⟨.exact 0xD, .any, .any, .any⟩
  | .skp => ⟨.exact 0xE, .any, .exact 0x9, .exact 0xE⟩
  | .sknp => ⟨.exact 0xE, .any, .exact 0xA, .exact 0x1⟩
  | .ldVxDt => ⟨.exact 0xF, .any, .exact 0x0, .exact 0x7⟩
  | .ldVxK => ⟨.exact 0xF, .any, .exact 0x0, .exact 0xA⟩
  | .ldDtVx => ⟨.exact 0xF, .any, .exact 0x1, .exact 0x5⟩
  | .ldStVx => ⟨.exact 0xF, .any, .exact 0x1, .exact 0x8⟩
  | .addI => ⟨.exact 0xF, .any, .exact 0x1, .exact 0xE⟩
  | .ldF => ⟨.exact 0xF, .any, .exact 0x2, .exact 0x9⟩
  | .ldB => ⟨.exact 0xF, .any, .exact 0x3, .exact 0x3⟩
  | .storeRegs => ⟨.exact 0xF, .any, .exact 0x5, .exact 0x5⟩
  | .loadRegs => ⟨.exact 0xF, .any, .exact 0x6, .exact 0x5⟩

/-- A handler "consumes only the fields relevant to its form" (R92, R93). -/
def Opcode.instr (o : Opcode) (f : Fields) : Instr :=
  match o with
  | .cls => .cls
  | .ret => .ret
  | .low => .low
  | .high => .high
  | .jp => .jp f.addr12
  | .call => .call f.addr12
  | .seImm => .seImm f.x f.imm8
  | .sneImm => .sneImm f.x f.imm8
  | .seReg => .seReg f.x f.y
  | .ldImm => .ldImm f.x f.imm8
  | .addImm => .addImm f.x f.imm8
  | .ldReg => .ldReg f.x f.y
  | .orReg => .orReg f.x f.y
  | .andReg => .andReg f.x f.y
  | .xorReg => .xorReg f.x f.y
  | .addReg => .addReg f.x f.y
  | .sub => .sub f.x f.y
  | .shr => .shr f.x f.y
  | .subn => .subn f.x f.y
  | .shl => .shl f.x f.y
  | .sneReg => .sneReg f.x f.y
  | .ldI => .ldI f.addr12
  | .jpV0 => .jpV0 f.addr12
  | .rnd => .rnd f.x f.imm8
  | .drw => .drw f.x f.y f.small4
  | .skp => .skp f.x
  | .sknp => .sknp f.x
  | .ldVxDt => .ldVxDt f.x
  | .ldVxK => .ldVxK f.x
  | .ldDtVx => .ldDtVx f.x
  | .ldStVx => .ldStVx f.x
  | .addI => .addI f.x
  | .ldF => .ldF f.x
  | .ldB => .ldB f.x
  | .storeRegs => .storeRegs f.x
  | .loadRegs => .loadRegs f.x

/-- The handler an instruction belongs to. -/
def Instr.opcode : Instr → Opcode
  | .cls => .cls
  | .ret => .ret
  | .low => .low
  | .high => .high
  | .jp _ => .jp
  | .call _ => .call
  | .seImm _ _ => .seImm
  | .sneImm _ _ => .sneImm
  | .seReg _ _ => .seReg
  | .ldImm _ _ => .ldImm
  | .addImm _ _ => .addImm
  | .ldReg _ _ => .ldReg
  | .orReg _ _ => .orReg
  | .andReg _ _ => .andReg
  | .xorReg _ _ => .xorReg
  | .addReg _ _ => .addReg
  | .sub _ _ => .sub
  | .shr _ _ => .shr
  | .subn _ _ => .subn
  | .shl _ _ => .shl
  | .sneReg _ _ => .sneReg
  | .ldI _ => .ldI
  | .jpV0 _ => .jpV0
  | .rnd _ _ => .rnd
  | .drw _ _ _ => .drw
  | .skp _ => .skp
  | .sknp _ => .sknp
  | .ldVxDt _ => .ldVxDt
  | .ldVxK _ => .ldVxK
  | .ldDtVx _ => .ldDtVx
  | .ldStVx _ => .ldStVx
  | .addI _ => .addI
  | .ldF _ => .ldF
  | .ldB _ => .ldB
  | .storeRegs _ => .storeRegs
  | .loadRegs _ => .loadRegs

/-! ### The dispatch tree -/

/-- A node of the tree: children under exact nibble keys and, at most one, under the wildcard (R121). -/
structure Node (α : Type) where
  exact : List (Nibble × α)
  wild : Option α
  deriving DecidableEq, Repr

/-- A node with no child. -/
def Node.empty {α : Type} : Node α := { exact := [], wild := none }

/-- "attempt the exact-value key first; if absent, attempt the wildcard key" (R123). -/
def Node.child {α : Type} (n : Node α) (k : Nibble) : Option α :=
  match n.exact.lookup k with
  | some c => some c
  | none => n.wild

/-- The list of exact children with the child under `v` replaced by `f` of it, or added. -/
def upsert {α : Type} (v : Nibble) (f : Option α → α) : List (Nibble × α) → List (Nibble × α)
  | [] => [(v, f none)]
  | (u, c) :: rest => if u = v then (u, f (some c)) :: rest else (u, c) :: upsert v f rest

/-- The node with the child under key `k` replaced by `f` of it, or added. -/
def Node.register {α : Type} (n : Node α) (k : Key) (f : Option α → α) : Node α :=
  match k with
  | .exact v => { n with exact := upsert v f n.exact }
  | .any => { n with wild := some (f n.wild) }

/-- Depth 4: level k is indexed by nibble `n_k`; the children at level 3 are handlers (R121). -/
abbrev DispatchTree := Node (Node (Node (Node Opcode)))

/-- Registration: "creates the path root, k0, k1, k2 and stores the handler under key k3" (R122). -/
def DispatchTree.insert (t : DispatchTree) (p : Pattern) (o : Opcode) : DispatchTree :=
  t.register p.k0 fun a =>
    (a.getD .empty).register p.k1 fun b =>
      (b.getD .empty).register p.k2 fun c =>
        (c.getD .empty).register p.k3 fun _ => o

/-- The tree, "built once, before the first cycle", from the 36 patterns (R122). -/
def dispatchTree : DispatchTree :=
  Opcode.all.foldl (fun t o => t.insert o.pattern o) .empty

/-- The lookup: one level per nibble, never going back; `none` is "no handler" (R123). -/
def lookup (w : Word) : Option Opcode :=
  match dispatchTree.child (nibble0 w) with
  | none => none
  | some a =>
    match a.child (nibble1 w) with
    | none => none
    | some b =>
      match b.child (nibble2 w) with
      | none => none
      | some c => c.child (nibble3 w)

/-- The flat table of masks and match values, scanned in registration order: the other form the source
allows (R124). -/
def lookupFlat (w : Word) : Option Opcode :=
  Opcode.all.find? fun o => o.pattern.matches w

/-! ### Decoder and encoder -/

/-- Why bytes decode to no instruction. -/
inductive DecodeReject where
  /-- The word matches no registered pattern: "no handler" (R95, R123). -/
  | noHandler (w : Word)
  /-- Fewer than the two bytes every instruction has (R90). -/
  | truncated
  deriving DecidableEq, Repr

/-- The instruction a word stands for, `none` on "no handler" (R120). -/
def decodeWord (w : Word) : Option Instr :=
  (lookup w).map fun o => o.instr (Fields.ofWord w)

/-- The decoder on bytes in memory order, high byte first (R62, R90), with the bytes left over. -/
def decodeBytes : List Byte → Except DecodeReject (Instr × List Byte)
  | hi :: lo :: rest =>
    match decodeWord (hi ++ lo) with
    | some i => .ok (i, rest)
    | none => .error (.noHandler (hi ++ lo))
  | _ => .error .truncated

/-- The word of an instruction, nibble by nibble from the patterns of R94. -/
def encode : Instr → Word
  | .cls => 0x00E0
  | .ret => 0x00EE
  | .low => 0x00FE
  | .high => 0x00FF
  | .jp nnn => 0x1#4 ++ nnn
  | .call nnn => 0x2#4 ++ nnn
  | .seImm x kk => 0x3#4 ++ x ++ kk
  | .sneImm x kk => 0x4#4 ++ x ++ kk
  | .seReg x y => 0x5#4 ++ x ++ y ++ 0x0#4
  | .ldImm x kk => 0x6#4 ++ x ++ kk
  | .addImm x kk => 0x7#4 ++ x ++ kk
  | .ldReg x y => 0x8#4 ++ x ++ y ++ 0x0#4
  | .orReg x y => 0x8#4 ++ x ++ y ++ 0x1#4
  | .andReg x y => 0x8#4 ++ x ++ y ++ 0x2#4
  | .xorReg x y => 0x8#4 ++ x ++ y ++ 0x3#4
  | .addReg x y => 0x8#4 ++ x ++ y ++ 0x4#4
  | .sub x y => 0x8#4 ++ x ++ y ++ 0x5#4
  | .shr x y => 0x8#4 ++ x ++ y ++ 0x6#4
  | .subn x y => 0x8#4 ++ x ++ y ++ 0x7#4
  | .shl x y => 0x8#4 ++ x ++ y ++ 0xE#4
  | .sneReg x y => 0x9#4 ++ x ++ y ++ 0x0#4
  | .ldI nnn => 0xA#4 ++ nnn
  | .jpV0 nnn => 0xB#4 ++ nnn
  | .rnd x kk => 0xC#4 ++ x ++ kk
  | .drw x y n => 0xD#4 ++ x ++ y ++ n
  | .skp x => 0xE#4 ++ x ++ 0x9E#8
  | .sknp x => 0xE#4 ++ x ++ 0xA1#8
  | .ldVxDt x => 0xF#4 ++ x ++ 0x07#8
  | .ldVxK x => 0xF#4 ++ x ++ 0x0A#8
  | .ldDtVx x => 0xF#4 ++ x ++ 0x15#8
  | .ldStVx x => 0xF#4 ++ x ++ 0x18#8
  | .addI x => 0xF#4 ++ x ++ 0x1E#8
  | .ldF x => 0xF#4 ++ x ++ 0x29#8
  | .ldB x => 0xF#4 ++ x ++ 0x33#8
  | .storeRegs x => 0xF#4 ++ x ++ 0x55#8
  | .loadRegs x => 0xF#4 ++ x ++ 0x65#8

/-- A word as the two bytes memory holds it in, high byte at the lower address (R62). -/
def wordBytes (w : Word) : List Byte := [w.extractLsb' 8 8, w.extractLsb' 0 8]

/-- The bytes of an instruction in memory order (R100). -/
def encodeBytes (i : Instr) : List Byte := wordBytes (encode i)

/-- The word of an opcode-table row: bit 0 is the least significant bit of the word, the bits from `nbits` on
are 0. -/
def tableWord (nbits w : Nat) : Word := BitVec.ofNat 16 (w % 2 ^ nbits)

/-- The instruction the decoder reads from a word numbered as spec/opcode_table.json numbers it: laid out as
memory holds it, then decoded. -/
def decodeTableWord (nbits w : Nat) : Option Instr :=
  match decodeBytes (wordBytes (tableWord nbits w)) with
  | .ok (i, _) => some i
  | .error _ => none

end Sys2Proof
end

