-- ==== Sys2Proof/Machine/State.lean ====
section
/-! DEFINITION. The machine's state as plain data, every field of 10_state.md R20 and the model's own three;
the host's events; the reasons a step can stop; the state after reset (R39). -/
namespace Sys2Proof.Machine

/-- The memory (R21, R60): address and byte pairs, addresses strictly rising, no entry equal to 0x00. An address
not listed reads as 0x00, the reset contents (R39). -/
abbrev Memory := List Host.Cell

/-- The canonical form of a memory. -/
def Memory.wf (m : Memory) : Bool := cellsWf 0 m

/-- The framebuffer (R29): entry `py` is row `py`, and its bit `px` is the pixel (px, py). How the array is laid
out "is not observable" (R29, D25; log 10). -/
abbrev Framebuffer := Vector (BitVec 128) 64

/-- The screen mode (R30). -/
inductive ScreenMode where
  | standard
  | extended
  deriving DecidableEq, Repr

/-- The run state (R33). -/
inductive RunState where
  | paused
  | running
  deriving DecidableEq, Repr

/-- The register `fault` (R34, R251): the fatal condition that stopped the core. -/
inductive FaultCode where
  /-- no fault -/
  | none
  /-- the fetched word matches no pattern (R252) -/
  | decodeMiss
  /-- `CALL` with sp = 16 (R253) -/
  | stackOverflow
  /-- `RET` with sp = 0 (R254) -/
  | stackUnderflow
  /-- the new pc is above 0xFFE (R255) -/
  | pcOutOfRange
  /-- the new pc is at most 0xFFE and odd (R256) -/
  | pcMisaligned
  /-- the last byte of a data access is beyond 0xFFF (R257) -/
  | memRange
  deriving DecidableEq, Repr

/-- The host's events (R263). An argument the interface does not allow can be written down, and is refused when
the event is applied (U11). -/
inductive HostEvent where
  /-- RESET (R290) -/
  | reset
  /-- LOAD (R291) -/
  | load (bytes : List Byte) (addr : Nat)
  /-- LOAD_ROM: RESET then LOAD (R292) -/
  | loadRom (bytes : List Byte) (addr : Nat)
  /-- SET_RUN (R267) -/
  | setRun (r : RunState)
  /-- KEY_DOWN (R264) -/
  | keyDown (k : Nat)
  /-- KEY_UP (R265) -/
  | keyUp (k : Nat)
  /-- TIMER_TICK (R266) -/
  | timerTick
  deriving DecidableEq, Repr

/-- One element of "the sequence of events and cycles" (R268): an event of the host, or the core's turn. -/
inductive Turn where
  | event (e : HostEvent)
  | core
  deriving DecidableEq, Repr

/-- The complete state (R20), and after it the model's own fields. -/
structure State where
  /-- `mem` (R21) -/
  mem : Memory
  /-- `V[0..15]`, V0 to VF (R22, R23) -/
  v : Vector Byte 16
  /-- the index register `I` (R24) -/
  i : Word
  /-- the program counter (R25) -/
  pc : Word
  /-- `stack[0..15]` (R26) -/
  stack : Vector Word 16
  /-- the stack pointer, 0 to 16 (R27) -/
  sp : Fin 17
  /-- the delay timer `DT` (R28) -/
  dt : Byte
  /-- the sound timer `ST` (R28) -/
  st : Byte
  /-- `fb[0..127, 0..63]` (R29) -/
  fb : Framebuffer
  /-- the screen mode (R30) -/
  mode : ScreenMode
  /-- `key[0..15]` (R31) -/
  key : Vector Bool 16
  /-- `wait_key` (R32) -/
  waitKey : Bool
  /-- `wait_reg` (R32) -/
  waitReg : RegIndex
  /-- `run_state` (R33) -/
  runState : RunState
  /-- `fault` (R34) -/
  fault : FaultCode
  /-- `fault_info` (R34) -/
  faultInfo : Word
  /-- the MODEL's own: the open parameters, which no step changes (R5; log 3) -/
  config : Config
  /-- the MODEL's own: the index of the next draw of `Config.rnd` (log 2) -/
  draws : Nat
  /-- the MODEL's own: the events and core turns still to come, the first one next; when it is empty every
  further turn is the core's (R268; log 1) -/
  schedule : List Turn
  deriving DecidableEq, Repr

/-- Why a step stops with a fault. The spec's own faults are NOT here: taking one is a next state, recorded in
`State.fault` (R259). -/
inductive Fault where
  /-- Raised by the fetch when an enabled core's pc is above 0xFFE. No run from reset reaches such a state (R38 (a),
  R66). Safe. -/
  | fetchOutOfRange
  /-- Raised by the fetch when an enabled core's pc is at most 0xFFE and odd: "no fetch from an odd address ever
  happens" (R64). No run from reset reaches such a state. Safe. -/
  | fetchMisaligned
  deriving DecidableEq, Repr

/-- Why a request is refused. -/
inductive Refusal where
  /-- Raised by `exec` for an instruction that has no meaning yet; no arm does. Safe. -/
  | notModelled (mnemonic : String)
  /-- Raised by KEY_DOWN and KEY_UP with an index above 15, which is outside the interface (R264, U11). Safe. -/
  | keyIndexOutOfRange (k : Nat)
  /-- Raised by the single-pixel read port outside 0..127, 0..63 (R41, U9); no step raises it. Safe. -/
  | pixelOutsideBuffer (px py : Nat)
  /-- Raised by the disassembly query at an odd address or above 0xFFE (R130, U10); no step raises it. Safe. -/
  | disasmAddress (addr : Nat)
  deriving DecidableEq, Repr

/-- What a step, a meaning or an event answers. -/
abbrev Result := Host.Outcome State Fault Refusal

/-- The state after reset: power-on, where `run_state` is `paused`, with the first RESET folded in (R39, R293;
log 4). The last three fields are the model's own (logs 1, 2, 3). -/
def State.reset : State where
  mem := []
  v := Vector.replicate 16 0x00
  i := 0x0000
  pc := resetPc
  stack := Vector.replicate 16 0x0000
  sp := 0
  dt := 0x00
  st := 0x00
  fb := Vector.replicate 64 0
  mode := .standard
  key := Vector.replicate 16 false
  waitKey := false
  waitReg := 0
  runState := .paused
  fault := .none
  faultInfo := 0x0000
  config := Config.default
  draws := 0
  schedule := []

end Sys2Proof.Machine
end

