-- ==== Sys2Proof/Machine/Ops.lean ====
section
/-! DEFINITION. The named operations over memory, registers, stack and framebuffer that every meaning is written
with (00_scope.md R10), the range and pc checks, and taking a fault (60_exceptions.md R259). -/
namespace Sys2Proof.Machine

/-! ### Memory -/

/-- The byte at an address; an unlisted address reads as 0x00 (R39, R67). -/
def Memory.read : Memory → Nat → Byte
  | [], _ => 0x00
  | (b, v) :: rest, a => if b = a then v else Memory.read rest a

/-- The cells of one address holding a byte: none for 0x00, the byte an unlisted address reads as. -/
def Memory.cell (a : Nat) (v : Byte) : Memory := if v = 0x00 then [] else [(a, v)]

/-- The memory with one byte written, in canonical form (R67). -/
def Memory.write : Memory → Nat → Byte → Memory
  | [], a, v => Memory.cell a v
  | (b, u) :: rest, a, v =>
    if b < a then (b, u) :: Memory.write rest a v
    else if b = a then Memory.cell a v ++ rest
    else Memory.cell a v ++ (b, u) :: rest

/-- The memory with a byte string written at ascending addresses from `a`, byte 0 first in address (R63, R75).
The writes are to distinct addresses and the cycle is atomic, so their order is not observable (R68; log 11). -/
def Memory.writeBytes (m : Memory) (a : Nat) : List Byte → Memory
  | [] => m
  | v :: rest => Memory.write (Memory.writeBytes m (a + 1) rest) a v

/-- `MemRead(addr, 1)` (R10, R67). -/
def State.readByte (s : State) (a : Nat) : Byte := s.mem.read a

/-- `MemRead(addr, 2)`: `mem[addr] ++ mem[addr + 1]`, high byte first (R62). -/
def State.readWord (s : State) (a : Nat) : Word := s.readByte a ++ s.readByte (a + 1)

/-- `MemWrite` of a byte string at ascending addresses (R10, R63). -/
def State.writeBytes (s : State) (a : Nat) (bytes : List Byte) : State :=
  { s with mem := s.mem.writeBytes a bytes }

/-- `CheckRange(base, count)` passes: `count` is 0 or the last address, on unbounded integers, is at most 0xFFF
(R10, R65). -/
def rangeOk (base : Word) (count : Nat) : Bool := count == 0 || base.toNat + count - 1 < memSize

/-! ### Registers -/

/-- `V[x]` (R10, R22). -/
def State.getV (s : State) (x : RegIndex) : Byte := s.v[x.toNat]'(x.isLt)

/-- `V[x] <- a` (R10, R22). No register is hardwired. -/
def State.setV (s : State) (x : RegIndex) (a : Byte) : State :=
  { s with v := s.v.set x.toNat a x.isLt }

/-- `I <- a` (R24). -/
def State.setI (s : State) (a : Word) : State := { s with i := a }

/-- `pc <- t` (R25). -/
def State.setPc (s : State) (t : Word) : State := { s with pc := t }

/-- `pc <- pc + 2` (R11, R129). -/
def State.advance (s : State) : State := s.setPc (s.pc + 2)

/-- A skip: `pc <- pc + 4` when the condition holds, else `pc <- pc + 2` (R129). -/
def State.skipIf (s : State) (taken : Bool) : State := s.setPc (if taken then s.pc + 4 else s.pc + 2)

/-! ### Taking a fault

There is no return from a fault for the program: the only way out is the host's RESET (R260), which stands in
Machine/HostEvents.lean. -/

/-- Fault entry, `raise <Fault>(info)`: "`fault <- <Fault>`; `fault_info <- info`; `run_state <- paused`; the cycle
ends" (R259). Nothing is saved and control goes nowhere: the core stops. -/
def State.raise (s : State) (f : FaultCode) (info : Word) : State :=
  { s with fault := f, faultInfo := info, runState := .paused }

/-- The cycle's check of the new pc: above 0xFFE raises PcOutOfRange, else odd raises PcMisaligned; pc keeps its
value (R126, R255, R256). -/
def State.checkPc (s : State) : State :=
  if pcMax < s.pc.toNat then s.raise .pcOutOfRange s.pc
  else if s.pc.toNat % 2 = 1 then s.raise .pcMisaligned s.pc
  else s

/-! ### Stack -/

/-- `stack[sp] <- a; sp <- sp + 1`, `none` when sp = 16 (R26, R27, R142). -/
def State.push (s : State) (a : Word) : Option State :=
  if h : s.sp.val < 16 then
    some { s with stack := s.stack.set s.sp.val a h, sp := ⟨s.sp.val + 1, by omega⟩ }
  else none

/-- `sp <- sp - 1`, and `stack[sp]`, which keeps its value; `none` when sp = 0 (R26, R27, R140). -/
def State.pop (s : State) : Option (Word × State) :=
  if h : 0 < s.sp.val then
    some (s.stack[s.sp.val - 1]'(by omega), { s with sp := ⟨s.sp.val - 1, by omega⟩ })
  else none

/-! ### Framebuffer -/

/-- `fb[px, py]`, dark outside the buffer (R29). -/
def Framebuffer.pixel (fb : Framebuffer) (px py : Nat) : Bool :=
  if h : py < 64 then fb[py].getLsbD px else false

/-- `fb[px, py] <- fb[px, py] xor 1` (R213). -/
def Framebuffer.flip (fb : Framebuffer) (px py : Nat) : Framebuffer :=
  if h : py < 64 then fb.set py (fb[py] ^^^ BitVec.twoPow 128 px) h else fb

/-- Every pixel 0 (R210). -/
def Framebuffer.dark : Framebuffer := Vector.replicate 64 0

/-- `fb[px, py]` of the state (R29). -/
def State.pixel (s : State) (px py : Nat) : Bool := s.fb.pixel px py

/-- The active width: 64 in standard mode, 128 in extended mode (R214). -/
def ScreenMode.width : ScreenMode → Nat
  | .standard => 64
  | .extended => 128

/-- The active height: 32 in standard mode, 64 in extended mode (R214). -/
def ScreenMode.height : ScreenMode → Nat
  | .standard => 32
  | .extended => 64

end Sys2Proof.Machine
end

