-- ==== Sys2Proof/Machine/Operands.lean ====
section
/-! DEFINITION. The operand forms of the instruction rules: zero extension (R92), the jump offset (R147), the key
and glyph a register selects (R236, R192), decimal digits (R193), and the registers of a block transfer
(R194, R195). -/
namespace Sys2Proof.Machine

/-- `zext_16(nnn)` (R8, R92). -/
def addr16 (nnn : Addr) : Word := nnn.setWidth 16

/-- `zext_16(V[x])` (R8, R191). -/
def byte16 (b : Byte) : Word := b.setWidth 16

/-- `zext_16(nnn) + zext_16(V[0])`, at most 0x10FE, so no wrap (R147). -/
def jumpTarget (s : State) (nnn : Addr) : Word := addr16 nnn + byte16 (s.getV 0)

/-- The low nibble of a register's value (R236, R192). -/
def lowNibble (b : Byte) : Nibble := b.extractLsb' 0 4

/-- `key[k]` for the key `k` that register x selects (R31, R236). -/
def keyOf (s : State) (x : RegIndex) : Bool :=
  s.key[(lowNibble (s.getV x)).toNat]'((lowNibble (s.getV x)).isLt)

/-- `FONT_BASE + 5 * d` with d the low nibble (R192). -/
def glyphAddr (c : Config) (b : Byte) : Word := addr16 c.fontBase + 5 * (lowNibble b).setWidth 16

/-- The three decimal digits, hundreds first (R193). -/
def bcdDigits (b : Byte) : List Byte :=
  [BitVec.ofNat 8 (b.toNat / 100), BitVec.ofNat 8 (b.toNat / 10 % 10), BitVec.ofNat 8 (b.toNat % 10)]

/-- The number of bytes a block transfer moves: `x + 1` (R65). -/
def blockCount (x : RegIndex) : Nat := x.toNat + 1

/-- V0 to Vx in order (R194). -/
def blockRegs (s : State) (x : RegIndex) : List Byte := s.v.toList.take (blockCount x)

/-- `for k in 0, ..., x: V[k] <- MemRead(I + k, 1)` (R195). -/
def loadBlock (s : State) (x : RegIndex) : Vector Byte 16 :=
  (List.range (blockCount x)).foldl (fun v k => v.setIfInBounds k (s.readByte (s.i.toNat + k))) s.v

end Sys2Proof.Machine
end

