-- ==== Sys2Proof/Machine/Flags.lean ====
section
/-! DEFINITION. The values VF takes as a flag (10_state.md R23, 42_alu.md R172, R173): computed on the exact
integers and written last. -/
namespace Sys2Proof.Machine

/-- VF as a flag holds 0x00 or 0x01 (R23). -/
def flagByte (b : Bool) : Byte := if b then 0x01 else 0x00

/-- The register VF (R23). -/
def vf : RegIndex := 0xF

/-- The carry of `ADD Vx, Vy`: the 9-bit sum exceeds 0xFF (R23, R166). -/
def carryOut (a b : Byte) : Bool := 0xFF < a.toNat + b.toNat

/-- No borrow of `a - b`: a >= b (R23, R167, R173). -/
def noBorrow (a b : Byte) : Bool := b.toNat ≤ a.toNat

/-- The bit `SHR` shifts out: bit 0 (R168). -/
def lowBit (a : Byte) : Bool := a.getLsbD 0

/-- The bit `SHL` shifts out: bit 7 (R170). -/
def highBit (a : Byte) : Bool := a.getLsbD 7

/-- "the result is written to `V[x]`, then the flag is written to `V[0xF]`" (R172). -/
def State.setVThenFlag (s : State) (x : RegIndex) (result : Byte) (flag : Bool) : State :=
  (s.setV x result).setV vf (flagByte flag)

end Sys2Proof.Machine
end

