-- ==== Sys2Proof/Machine/Alu.lean ====
section
/-! DEFINITION. The meanings of 42_alu.md: register moves, arithmetic, logic, shifts, RND. -/
namespace Sys2Proof.Machine

/-- `LD Vx, byte` (R160). -/
def execLdImm (x : RegIndex) (kk : Byte) (s : State) : Result := .next (s.setV x kk).advance

/-- `ADD Vx, byte` (R161): modulo 256, the carry is discarded and VF is not written (D15). -/
def execAddImm (x : RegIndex) (kk : Byte) (s : State) : Result := .next (s.setV x (s.getV x + kk)).advance

/-- `LD Vx, Vy` (R162). -/
def execLdReg (x y : RegIndex) (s : State) : Result := .next (s.setV x (s.getV y)).advance

/-- `OR Vx, Vy` (R163): VF is not written (D14). -/
def execOrReg (x y : RegIndex) (s : State) : Result := .next (s.setV x (s.getV x ||| s.getV y)).advance

/-- `AND Vx, Vy` (R164): VF is not written (D14). -/
def execAndReg (x y : RegIndex) (s : State) : Result := .next (s.setV x (s.getV x &&& s.getV y)).advance

/-- `XOR Vx, Vy` (R165): VF is not written (D14). -/
def execXorReg (x y : RegIndex) (s : State) : Result := .next (s.setV x (s.getV x ^^^ s.getV y)).advance

/-- `ADD Vx, Vy` (R166): the sum modulo 256, then VF <- carry. -/
def execAddReg (x y : RegIndex) (s : State) : Result :=
  let a := s.getV x
  let b := s.getV y
  .next (s.setVThenFlag x (a + b) (carryOut a b)).advance

/-- `SUB Vx, Vy` (R167): a - b modulo 256, then VF <- no borrow. -/
def execSub (x y : RegIndex) (s : State) : Result :=
  let a := s.getV x
  let b := s.getV y
  .next (s.setVThenFlag x (a - b) (noBorrow a b)).advance

/-- `SHR Vx` (R168): Vx itself is shifted and `y` is ignored (D13); VF <- the old bit 0. -/
def execShr (x _y : RegIndex) (s : State) : Result :=
  let a := s.getV x
  .next (s.setVThenFlag x (a >>> 1) (lowBit a)).advance

/-- `SUBN Vx, Vy` (R169): b - a modulo 256, then VF <- no borrow. -/
def execSubn (x y : RegIndex) (s : State) : Result :=
  let a := s.getV x
  let b := s.getV y
  .next (s.setVThenFlag x (b - a) (noBorrow b a)).advance

/-- `SHL Vx` (R170): Vx itself is shifted and `y` is ignored (D13); VF <- the old bit 7. -/
def execShl (x _y : RegIndex) (s : State) : Result :=
  let a := s.getV x
  .next (s.setVThenFlag x (a <<< 1) (highBit a)).advance

/-- `RND Vx, byte` (R171): the draw given to this cycle, masked by kk. The draw is a free value (log 2). -/
def execRnd (x : RegIndex) (kk : Byte) (s : State) : Result :=
  .next { (s.setV x (Config.rnd s.draws &&& kk)).advance with draws := s.draws + 1 }

end Sys2Proof.Machine
end

