-- ==== Sys2Proof/Machine/Control.lean ====
section
/-! DEFINITION. The meanings of 41_control_flow.md: RET, JP, CALL, the four register skips, JP V0. Each is the
pseudocode of its rule; the check of the new pc is the cycle's (40_dispatch.md R126). -/
namespace Sys2Proof.Machine

/-- `RET` (R140): StackUnderflow when sp = 0, before anything changes; else pop into pc. -/
def execRet (s : State) : Result :=
  match s.pop with
  | none => .next (s.raise .stackUnderflow s.pc)
  | some (a, t) => .next (t.setPc a)

/-- `JP addr` (R141). -/
def execJp (nnn : Addr) (s : State) : Result := .next (s.setPc (addr16 nnn))

/-- `CALL addr` (R142): StackOverflow when sp = 16, before anything changes; else push pc + 2 and jump. -/
def execCall (nnn : Addr) (s : State) : Result :=
  match s.push (s.pc + 2) with
  | none => .next (s.raise .stackOverflow s.pc)
  | some t => .next (t.setPc (addr16 nnn))

/-- `SE Vx, byte` (R143). -/
def execSeImm (x : RegIndex) (kk : Byte) (s : State) : Result := .next (s.skipIf (s.getV x == kk))

/-- `SNE Vx, byte` (R144). -/
def execSneImm (x : RegIndex) (kk : Byte) (s : State) : Result := .next (s.skipIf (s.getV x != kk))

/-- `SE Vx, Vy` (R145). -/
def execSeReg (x y : RegIndex) (s : State) : Result := .next (s.skipIf (s.getV x == s.getV y))

/-- `SNE Vx, Vy` (R146). -/
def execSneReg (x y : RegIndex) (s : State) : Result := .next (s.skipIf (s.getV x != s.getV y))

/-- `JP V0, addr` (R147): the offset register is V0 whatever n1 is (D17). -/
def execJpV0 (nnn : Addr) (s : State) : Result := .next (s.setPc (jumpTarget s nnn))

end Sys2Proof.Machine
end

