-- ==== Sys2Proof/Machine/Display.lean ====
section
/-! DEFINITION. The meanings of 44_display.md: CLS, LOW, HIGH and the draw datapath of DRW. -/
namespace Sys2Proof.Machine

/-- `CLS` (R210): the whole buffer, in either mode (D27). -/
def execCls (s : State) : Result := .next { s with fb := Framebuffer.dark }.advance

/-- `LOW` (R211): standard mode, and the whole buffer cleared (D26). -/
def execLow (s : State) : Result := .next { s with mode := .standard, fb := Framebuffer.dark }.advance

/-- `HIGH` (R212): extended mode, and the whole buffer cleared (D26). -/
def execHigh (s : State) : Result := .next { s with mode := .extended, fb := Framebuffer.dark }.advance

/-- The framebuffer and the collision so far, in the course of a draw (R213). -/
structure DrawState where
  fb : Framebuffer
  coll : Bool
  deriving DecidableEq, Repr

/-- One lit bit of the sprite: the collision is noted when the pixel is lit, and the pixel is inverted (R213). -/
def plot (d : DrawState) (px py : Nat) : DrawState :=
  { fb := d.fb.flip px py, coll := d.coll || d.fb.pixel px py }

/-- Column `c` of a row: bit `7 - c` of the byte, at `(x0 + c) mod W` (R213 (a), (b), (c)). -/
def drawColumn (w x0 py : Nat) (b : Byte) (d : DrawState) (c : Nat) : DrawState :=
  if b.getLsbD (7 - c) then plot d ((x0 + c) % w) py else d

/-- One row of eight columns (R213). -/
def drawRow (w x0 py : Nat) (b : Byte) (d : DrawState) : DrawState :=
  (List.range 8).foldl (drawColumn w x0 py b) d

/-- Rows 0 to n - 1: the byte at I + r, in buffer row `(y0 + r) mod H` (R213). -/
def drawSprite (s : State) (x0 y0 n : Nat) : DrawState :=
  (List.range n).foldl
    (fun d r => drawRow s.mode.width x0 ((y0 + r) % s.mode.height) (s.readByte (s.i.toNat + r)) d)
    { fb := s.fb, coll := false }

/-- `DRW Vx, Vy, nibble` (R213): the coordinates are read before VF is written; VF <- collision on every draw. -/
def execDrw (x y : RegIndex) (n : Nibble) (s : State) : Result :=
  if rangeOk s.i n.toNat then
    let d := drawSprite s (s.getV x).toNat (s.getV y).toNat n.toNat
    .next ({ s with fb := d.fb }.setV vf (flagByte d.coll)).advance
  else .next (s.raise .memRange s.i)

end Sys2Proof.Machine
end

