-- ==== Sys2Proof/Machine/IndexMemory.lean ====
section
/-! DEFINITION. The meanings of 43_index_memory.md: the index register, BCD and the block transfers. An access
beyond 0xFFF raises MemRange before anything is read or written (20_memory.md R65). -/
namespace Sys2Proof.Machine

/-- `LD I, addr` (R190). -/
def execLdI (nnn : Addr) (s : State) : Result := .next (s.setI (addr16 nnn)).advance

/-- `ADD I, Vx` (R191): modulo 65536, VF is not written (D18). -/
def execAddI (x : RegIndex) (s : State) : Result := .next (s.setI (s.i + byte16 (s.getV x))).advance

/-- `LD F, Vx` (R192): the address of the glyph the low nibble selects; no memory is read. -/
def execLdF (x : RegIndex) (s : State) : Result := .next (s.setI (glyphAddr s.config (s.getV x))).advance

/-- `LD B, Vx` (R193): hundreds, tens and ones at I, I + 1, I + 2. -/
def execLdB (x : RegIndex) (s : State) : Result :=
  if rangeOk s.i 3 then .next (s.writeBytes s.i.toNat (bcdDigits (s.getV x))).advance
  else .next (s.raise .memRange s.i)

/-- `LD [I], Vx` (R194): V0 to Vx stored at I to I + x; I is unchanged. -/
def execStoreRegs (x : RegIndex) (s : State) : Result :=
  if rangeOk s.i (blockCount x) then .next (s.writeBytes s.i.toNat (blockRegs s x)).advance
  else .next (s.raise .memRange s.i)

/-- `LD Vx, [I]` (R195): V0 to Vx loaded from I to I + x; I is unchanged. -/
def execLoadRegs (x : RegIndex) (s : State) : Result :=
  if rangeOk s.i (blockCount x) then .next { s with v := loadBlock s x }.advance
  else .next (s.raise .memRange s.i)

end Sys2Proof.Machine
end

