-- ==== Sys2Proof/Machine/KeysTimers.lean ====
section
/-! DEFINITION. The meanings of 45_keys_timers.md: the key skips, the timer moves, the key wait. -/
namespace Sys2Proof.Machine

/-- `SKP Vx` (R230): skip if the key named by the low nibble of Vx is down. -/
def execSkp (x : RegIndex) (s : State) : Result := .next (s.skipIf (keyOf s x))

/-- `SKNP Vx` (R231): skip if that key is up. -/
def execSknp (x : RegIndex) (s : State) : Result := .next (s.skipIf (!keyOf s x))

/-- `LD Vx, DT` (R232). -/
def execLdVxDt (x : RegIndex) (s : State) : Result := .next (s.setV x s.dt).advance

/-- `LD Vx, K` (R233): the wait is set and pc advances now; the next KEY_DOWN completes it (R264). -/
def execLdVxK (x : RegIndex) (s : State) : Result :=
  .next { s with waitKey := true, waitReg := x }.advance

/-- `LD DT, Vx` (R234). -/
def execLdDtVx (x : RegIndex) (s : State) : Result := .next { s with dt := s.getV x }.advance

/-- `LD ST, Vx` (R235). -/
def execLdStVx (x : RegIndex) (s : State) : Result := .next { s with st := s.getV x }.advance

end Sys2Proof.Machine
end

