-- ==== Sys2Proof/Machine/HostEvents.lean ====
section
/-! DEFINITION. The host's events (60_exceptions.md R263 to R268, 70_reset_and_hazards.md R290 to R292). RESET is
the only way out of a fault (R260). -/
namespace Sys2Proof.Machine

/-- RESET (R290): every piece of state to its value of R39, and `run_state` left alone. The parameters, the draws
to come and the schedule are not the core's state and stay (logs 1, 2, 3). -/
def State.hostReset (s : State) : State :=
  { State.reset with
    runState := s.runState, config := s.config, draws := s.draws, schedule := s.schedule }

/-- LOAD (R291): all the bytes when they fit, else nothing at all; the result is the boolean (log 12). -/
def State.hostLoad (s : State) (bytes : List Byte) (addr : Nat) : State × Bool :=
  if loadFits bytes addr then (s.writeBytes addr bytes, true) else (s, false)

/-- LOAD_ROM (R292): RESET, then LOAD; its result is LOAD's. -/
def State.hostLoadRom (s : State) (bytes : List Byte) (addr : Nat) : State × Bool :=
  s.hostReset.hostLoad bytes addr

/-- SET_RUN (R267). -/
def State.hostSetRun (s : State) (r : RunState) : State := { s with runState := r }

/-- The half of KEY_DOWN that completes a pending `LD Vx, K` (R264). -/
def State.completeWait (s : State) (k : Nat) : State :=
  if s.waitKey then { s.setV s.waitReg (BitVec.ofNat 8 k) with waitKey := false } else s

/-- KEY_DOWN (R264): `key[k] <- 1`, then a pending wait completes. An index above 15 is refused (U11). -/
def hostKeyDown (k : Nat) (s : State) : Result :=
  if h : k < 16 then .next ({ s with key := s.key.set k true h }.completeWait k)
  else .refused (.keyIndexOutOfRange k)

/-- KEY_UP (R265): `key[k] <- 0`. An index above 15 is refused (U11). -/
def hostKeyUp (k : Nat) (s : State) : Result :=
  if h : k < 16 then .next { s with key := s.key.set k false h }
  else .refused (.keyIndexOutOfRange k)

/-- A timer's count: down by one, and a zero stays at zero (R266). -/
def tick (t : Byte) : Byte := if t = 0x00 then 0x00 else t - 1

/-- TIMER_TICK (R266). -/
def State.hostTimerTick (s : State) : State := { s with dt := tick s.dt, st := tick s.st }

/-- One event, applied atomically (R268). -/
def applyEvent (e : HostEvent) (s : State) : Result :=
  match e with
  | .reset => .next s.hostReset
  | .load bytes addr => .next (s.hostLoad bytes addr).1
  | .loadRom bytes addr => .next (s.hostLoadRom bytes addr).1
  | .setRun r => .next (s.hostSetRun r)
  | .keyDown k => hostKeyDown k s
  | .keyUp k => hostKeyUp k s
  | .timerTick => .next s.hostTimerTick

end Sys2Proof.Machine
end

