-- ==== Sys2Proof/Machine/Cycle.lean ====
section
/-! DEFINITION. The fetch, the cycle (40_dispatch.md R126), when it is enabled (R127), and whose turn it is
(60_exceptions.md R268). -/
namespace Sys2Proof.Machine

/-- "A cycle is enabled exactly when `run_state = running` and `fault = None` and `wait_key = 0`" (R127). -/
def State.enabled (s : State) : Bool := s.runState == .running && s.fault == .none && !s.waitKey

/-- `w <- MemRead(pc, 2)` (R126). "a fetch happens only with pc even and at most 0xFFE" (R66), which every state a
run reaches meets; elsewhere the model stops by name (log 8). -/
def fetch (s : State) : Except Fault Word :=
  if pcMax < s.pc.toNat then .error .fetchOutOfRange
  else if s.pc.toNat % 2 = 1 then .error .fetchMisaligned
  else .ok (s.readWord s.pc.toNat)

/-- The end of a cycle: the new pc is checked, unless the instruction raised a fault of its own, which "ends the
cycle" (R126, R258). -/
def settlePc : Result → Result
  | .next t => .next (if t.fault = .none then t.checkPc else t)
  | .fault f => .fault f
  | .refused r => .refused r

/-- One fetch, decode and execute of one instruction (R126); a decode miss changes nothing but the fault
registers and `run_state` (R128). -/
def cycle (s : State) : Result :=
  match fetch s with
  | .error f => .fault f
  | .ok w =>
    match decodeWord w with
    | none => .next (s.raise .decodeMiss w)
    | some i => settlePc (exec i s)

/-- The core's turn: a cycle if it is enabled; "a disabled core changes no state of its own accord" (R127). -/
def coreTurn (s : State) : Result := if s.enabled then cycle s else .next s

/-- The next turn of the schedule: an event is applied, one at a time and in order (R268), or the core has its
turn. An empty schedule gives the core every further turn (log 1). -/
def takeTurn (s : State) : Result :=
  match s.schedule with
  | [] => coreTurn s
  | .core :: rest => coreTurn { s with schedule := rest }
  | .event e :: rest => applyEvent e { s with schedule := rest }

/-- The state made ready to cycle: running, with no fault and no key wait, the core's turn next. -/
def State.readied (s : State) : State :=
  { s with runState := .running, fault := .none, waitKey := false, schedule := [] }

end Sys2Proof.Machine
end

