-- ==== Sys2Proof/Machine/Step.lean ====
section
/-! DEFINITION. `step`, and a word placed where the next step fetches it. -/
namespace Sys2Proof.Machine

/-- One step: the next turn of the schedule, a host event or a turn of the core (00_scope.md R6, R7,
60_exceptions.md R268). -/
def step (s : State) : Host.Outcome State Fault Refusal := takeTurn s

/-- The word of an opcode-table row stored at pc, high byte first, and the core ready to cycle. It stands for the
host's load and SET_RUN (log 5). Above 0xFFE nothing can be fetched and nothing is stored. -/
def State.withFetchWord (s : State) (nbits w : Nat) : State :=
  if pcMax < s.pc.toNat then s.readied
  else s.readied.writeBytes s.pc.toNat (wordBytes (tableWord nbits w))

end Sys2Proof.Machine
end

