-- ==== Sys2Proof/Machine/Disassembly.lean ====
section
/-! DEFINITION. The disassemble routine of every handler (40_dispatch.md R120) in the format of 30_encoding.md R97,
and the side-effect-free query (R130). -/
namespace Sys2Proof.Machine

/-- One upper-case hexadecimal digit (R97). -/
def hexDigit (n : Nibble) : Char :=
  (['0', '1', '2', '3', '4', '5', '6', '7', '8', '9', 'A', 'B', 'C', 'D', 'E', 'F'].drop n.toNat).headD '0'

/-- A register: `V` and one digit (R97). -/
def regText (x : RegIndex) : List Char := ['V', hexDigit x]

/-- A byte: `0x` and two digits (R97). -/
def byteText (b : Byte) : List Char := ['0', 'x', hexDigit (b.extractLsb' 4 4), hexDigit (b.extractLsb' 0 4)]

/-- An address: `0x` and three digits (R97). -/
def addrText (a : Addr) : List Char :=
  ['0', 'x', hexDigit (a.extractLsb' 8 4), hexDigit (a.extractLsb' 4 4), hexDigit (a.extractLsb' 0 4)]

/-- A nibble: `0x` and one digit (R97). -/
def nibbleText (n : Nibble) : List Char := ['0', 'x', hexDigit n]

/-- The separator of operands: a comma and one space (R97). -/
def commaText : List Char := [',', ' ']

/-- The text of an instruction, character by character (R97). -/
def disasmChars : Instr → List Char
  | .cls => ['C', 'L', 'S']
  | .ret => ['R', 'E', 'T']
  | .low => ['L', 'O', 'W']
  | .high => ['H', 'I', 'G', 'H']
  | .jp nnn => ['J', 'P', ' '] ++ addrText nnn
  | .call nnn => ['C', 'A', 'L', 'L', ' '] ++ addrText nnn
  | .seImm x kk => ['S', 'E', ' '] ++ regText x ++ commaText ++ byteText kk
  | .sneImm x kk => ['S', 'N', 'E', ' '] ++ regText x ++ commaText ++ byteText kk
  | .seReg x y => ['S', 'E', ' '] ++ regText x ++ commaText ++ regText y
  | .ldImm x kk => ['L', 'D', ' '] ++ regText x ++ commaText ++ byteText kk
  | .addImm x kk => ['A', 'D', 'D', ' '] ++ regText x ++ commaText ++ byteText kk
  | .ldReg x y => ['L', 'D', ' '] ++ regText x ++ commaText ++ regText y
  | .orReg x y => ['O', 'R', ' '] ++ regText x ++ commaText ++ regText y
  | .andReg x y => ['A', 'N', 'D', ' '] ++ regText x ++ commaText ++ regText y
  | .xorReg x y => ['X', 'O', 'R', ' '] ++ regText x ++ commaText ++ regText y
  | .addReg x y => ['A', 'D', 'D', ' '] ++ regText x ++ commaText ++ regText y
  | .sub x y => ['S', 'U', 'B', ' '] ++ regText x ++ commaText ++ regText y
  | .shr x _ => ['S', 'H', 'R', ' '] ++ regText x
  | .subn x y => ['S', 'U', 'B', 'N', ' '] ++ regText x ++ commaText ++ regText y
  | .shl x _ => ['S', 'H', 'L', ' '] ++ regText x
  | .sneReg x y => ['S', 'N', 'E', ' '] ++ regText x ++ commaText ++ regText y
  | .ldI nnn => ['L', 'D', ' ', 'I', ',', ' '] ++ addrText nnn
  | .jpV0 nnn => ['J', 'P', ' ', 'V', '0', ',', ' '] ++ addrText nnn
  | .rnd x kk => ['R', 'N', 'D', ' '] ++ regText x ++ commaText ++ byteText kk
  | .drw x y n => ['D', 'R', 'W', ' '] ++ regText x ++ commaText ++ regText y ++ commaText ++ nibbleText n
  | .skp x => ['S', 'K', 'P', ' '] ++ regText x
  | .sknp x => ['S', 'K', 'N', 'P', ' '] ++ regText x
  | .ldVxDt x => ['L', 'D', ' '] ++ regText x ++ [',', ' ', 'D', 'T']
  | .ldVxK x => ['L', 'D', ' '] ++ regText x ++ [',', ' ', 'K']
  | .ldDtVx x => ['L', 'D', ' ', 'D', 'T', ',', ' '] ++ regText x
  | .ldStVx x => ['L', 'D', ' ', 'S', 'T', ',', ' '] ++ regText x
  | .addI x => ['A', 'D', 'D', ' ', 'I', ',', ' '] ++ regText x
  | .ldF x => ['L', 'D', ' ', 'F', ',', ' '] ++ regText x
  | .ldB x => ['L', 'D', ' ', 'B', ',', ' '] ++ regText x
  | .storeRegs x => ['L', 'D', ' ', '[', 'I', ']', ',', ' '] ++ regText x
  | .loadRegs x => ['L', 'D', ' '] ++ regText x ++ [',', ' ', '[', 'I', ']']

/-- The text of an instruction (R97). -/
def disasmText (i : Instr) : String := String.ofList (disasmChars i)

/-- The disassembly query `Disasm(addr)` (R130): the handler's text, `none` for "no handler". It reads two bytes
and nothing else, and answers no state. An odd address or one above 0xFFE is refused (U10). -/
def disasm (s : State) (addr : Nat) : Except Refusal (Option String) :=
  if disasmAddrOk addr then .ok ((decodeWord (s.readWord addr)).map disasmText)
  else .error (.disasmAddress addr)

end Sys2Proof.Machine
end

