-- ==== Sys2Proof/Machine/Ports.lean ====
section
/-! DEFINITION. The host's read ports (10_state.md R40, R41): what it can read of a completed state, changing
nothing. -/
namespace Sys2Proof.Machine

/-- The ports of R40 whose value is always there. Memory has no port. -/
structure Ports where
  runState : RunState
  mode : ScreenMode
  fb : Framebuffer
  v : Vector Byte 16
  i : Word
  sp : Fin 17
  pc : Word
  dt : Byte
  st : Byte
  stack : Vector Word 16
  fault : FaultCode
  faultInfo : Word
  waitKey : Bool
  deriving DecidableEq, Repr

/-- What the ports show of a state (R40): "the value as of the last completed cycle or event". -/
def State.ports (s : State) : Ports where
  runState := s.runState
  mode := s.mode
  fb := s.fb
  v := s.v
  i := s.i
  sp := s.sp
  pc := s.pc
  dt := s.dt
  st := s.st
  stack := s.stack
  fault := s.fault
  faultInfo := s.faultInfo
  waitKey := s.waitKey

/-- The single-pixel query (R40); outside the buffer it is refused (R41, U9). -/
def State.pixelPort (s : State) (px py : Nat) : Except Refusal Bool :=
  if pixelOk px py then .ok (s.pixel px py) else .error (.pixelOutsideBuffer px py)

/-- The code of a fault, 0 to 6 (R251, D8). -/
def FaultCode.code : FaultCode → Nat
  | .none => 0
  | .decodeMiss => 1
  | .stackOverflow => 2
  | .stackUnderflow => 3
  | .pcOutOfRange => 4
  | .pcMisaligned => 5
  | .memRange => 6

end Sys2Proof.Machine
end

