-- ==== Sys2Proof/Safety.lean ====
section
/-! DEFINITION. What counts as a safe state and a finished run, in the terms the claims use: the invariant of
10_state.md R38, the end of a run (70_reset_and_hazards.md R299), an instruction about to run, the pc rule of
40_dispatch.md R129, the pixels a sprite covers (44_display.md R213). -/
namespace Sys2Proof.Machine

/-- "The legal values of pc at a fetch are the even numbers 0x000 to 0xFFE" (R25, C1). -/
def pcLegal (pc : Word) : Prop := pc.toNat % 2 = 0 ∧ pc.toNat ≤ pcMax

/-- What `pc` and `fault_info` hold for each value of `fault` (R38 (a), R251): a precise fault leaves pc legal, a pc
fault leaves the offending pc and repeats it. -/
def FaultInfoOk (s : State) : Prop :=
  match s.fault with
  | .none => pcLegal s.pc ∧ s.faultInfo = 0x0000
  | .decodeMiss => pcLegal s.pc ∧ decodeWord s.faultInfo = none
  | .stackOverflow => pcLegal s.pc ∧ s.faultInfo = s.pc ∧ s.sp.val = 16
  | .stackUnderflow => pcLegal s.pc ∧ s.faultInfo = s.pc ∧ s.sp.val = 0
  | .pcOutOfRange => s.faultInfo = s.pc ∧ pcMax < s.pc.toNat
  | .pcMisaligned => s.faultInfo = s.pc ∧ s.pc.toNat ≤ pcMax ∧ s.pc.toNat % 2 = 1
  | .memRange => pcLegal s.pc ∧ s.faultInfo = s.i ∧ 0xFFF < s.i.toNat + 15

/-- The invariant every step keeps: R38, the memory's canonical form, and what a recorded fault leaves (R251). -/
structure StateInv (s : State) : Prop where
  /-- the memory is in canonical form -/
  memWf : s.mem.wf = true
  /-- pc and fault_info fit the fault recorded (R38 (a), R251) -/
  faultOk : FaultInfoOk s
  /-- in standard mode the buffer outside 64 by 32 is dark (R38 (c)) -/
  offScreenDark : s.mode = .standard → ∀ px py, 64 ≤ px ∨ 32 ≤ py → s.pixel px py = false
  /-- a live stack entry is even and at most 0x1000 (R38 (e)) -/
  liveStack : ∀ j : Fin 16, j.val < s.sp.val → s.stack[j].toNat % 2 = 0 ∧ s.stack[j].toNat ≤ 0x1000
  /-- the glyphs of `FONT_BASE` fit below 0x1000 (R192) -/
  configWf : s.config.wf = true

/-- The core is enabled at a legal pc, it is its turn, and the word at pc decodes to `i`: the next step runs `i`
(R126, R127). -/
structure AtInstr (s : State) (i : Instr) : Prop where
  enabled : s.enabled = true
  coresTurn : s.schedule = []
  legalPc : pcLegal s.pc
  decodes : decodeWord (s.readWord s.pc.toNat) = some i

/-- Every byte of memory reads as before. -/
def SameMemory (s t : State) : Prop := ∀ a, t.readByte a = s.readByte a

/-- The cycle of instruction `i` ends in PcOutOfRange with the new pc exactly when that pc is above 0xFFE, and else in no
fault: what R143 to R146 say of a skip (R255). -/
def RangeFaultExactly (s : State) (i : Instr) : Prop :=
  ∀ t, AtInstr s i → step s = .next t →
    (0xFFE < t.pc.toNat → t.fault = .pcOutOfRange ∧ t.faultInfo = t.pc) ∧ (t.pc.toNat ≤ 0xFFE → t.fault = .none)

/-- "a run has ended well when the core is about to execute a `JP addr` whose target is its own address" with no
fault and no key wait. The core must be running: "A core that is paused, or waiting for a key that never comes, has not
ended" (R299, D43). -/
def EndedWell (s : State) : Prop :=
  s.runState = .running ∧ s.fault = .none ∧ s.waitKey = false ∧ pcLegal s.pc ∧
    s.readWord s.pc.toNat = 0x1000 + s.pc

/-- "A run has ended badly when `fault` is not `None`" (R299). -/
def EndedBadly (s : State) : Prop := s.fault ≠ .none

/-- What R129 says of the new pc: set explicitly by the four transfers; +4 or +2 for the six skips; else +2. -/
inductive PcRule where
  /-- `RET`, `JP addr`, `CALL addr`, `JP V0, addr` -/
  | explicit
  /-- a skip, with its condition -/
  | skip (taken : Bool)
  /-- every other instruction -/
  | plain
  deriving DecidableEq, Repr

/-- The pc rule of each instruction (R129), with the conditions of R143 to R146, R230 and R231. -/
def pcRule (s : State) : Instr → PcRule
  | .ret | .jp _ | .call _ | .jpV0 _ => .explicit
  | .seImm x kk => .skip (decide (s.getV x = kk))
  | .sneImm x kk => .skip (decide (s.getV x ≠ kk))
  | .seReg x y => .skip (decide (s.getV x = s.getV y))
  | .sneReg x y => .skip (decide (s.getV x ≠ s.getV y))
  | .skp x => .skip (keyOf s x)
  | .sknp x => .skip (!keyOf s x)
  | .cls | .low | .high => .plain
  | .ldImm _ _ | .addImm _ _ | .ldReg _ _ | .orReg _ _ | .andReg _ _ | .xorReg _ _ => .plain
  | .addReg _ _ | .sub _ _ | .shr _ _ | .subn _ _ | .shl _ _ | .rnd _ _ => .plain
  | .ldI _ | .addI _ | .ldF _ | .ldB _ | .storeRegs _ | .loadRegs _ => .plain
  | .drw _ _ _ => .plain
  | .ldVxDt _ | .ldVxK _ | .ldDtVx _ | .ldStVx _ => .plain

/-- The number of bytes an instruction accesses at I (R65); `none` for an instruction that accesses none. -/
def accessCount : Instr → Option Nat
  | .drw _ _ n => some n.toNat
  | .ldB _ => some 3
  | .storeRegs x | .loadRegs x => some (x.toNat + 1)
  | .cls | .ret | .low | .high | .jp _ | .call _ | .ldI _ | .jpV0 _ => none
  | .seImm _ _ | .sneImm _ _ | .seReg _ _ | .sneReg _ _ => none
  | .ldImm _ _ | .addImm _ _ | .ldReg _ _ | .orReg _ _ | .andReg _ _ | .xorReg _ _ => none
  | .addReg _ _ | .sub _ _ | .shr _ _ | .subn _ _ | .shl _ _ | .rnd _ _ => none
  | .skp _ | .sknp _ | .ldVxDt _ | .ldVxK _ | .ldDtVx _ | .ldStVx _ | .addI _ | .ldF _ => none

/-- The registers an instruction's rule lets it write: its destination, VF for the six that set it as a flag (R23),
V0 to Vx for the block load (R195). -/
def mayWriteV (i : Instr) (j : RegIndex) : Prop :=
  match i with
  | .ldImm x _ | .addImm x _ | .rnd x _ | .ldVxDt x => j = x
  | .ldReg x _ | .orReg x _ | .andReg x _ | .xorReg x _ => j = x
  | .addReg x _ | .sub x _ | .shr x _ | .subn x _ | .shl x _ => j = x ∨ j = 0xF
  | .drw _ _ _ => j = 0xF
  | .loadRegs x => j.toNat ≤ x.toNat
  | .cls | .ret | .low | .high | .jp _ | .call _ | .ldI _ | .jpV0 _ => False
  | .seImm _ _ | .sneImm _ _ | .seReg _ _ | .sneReg _ _ | .skp _ | .sknp _ => False
  | .ldVxK _ | .ldDtVx _ | .ldStVx _ | .addI _ | .ldF _ | .ldB _ | .storeRegs _ => False

/-- The pixel (px, py) lies under a set bit of the n-row sprite at I drawn at (x0, y0): some row r < n and column
c < 8 with the bit `7 - c` of the byte at I + r set, wrapped to the active screen (R213 (a), (b)). -/
def SpriteCovers (s : State) (x0 y0 n px py : Nat) : Prop :=
  ∃ r c, r < n ∧ c < 8 ∧ (s.readByte (s.i.toNat + r)).getLsbD (7 - c) = true ∧
    px = (x0 + c) % s.mode.width ∧ py = (y0 + r) % s.mode.height

/-! ### The printed form of an instruction, as 30_encoding.md R97 and R94 give it

Written from the values of the operands, and not from the routines of Machine/Disassembly.lean, so that a statement can
hold those routines against it. -/

/-- The upper-case hexadecimal digit of a number below 16, by its character code: `0` is 48, `A` is 65 (R97). -/
def hexChar (n : Nat) : Char := if n < 10 then Char.ofNat (48 + n) else Char.ofNat (55 + n)

/-- `0x` and the given number of digits, most significant first (R97). -/
def shownNumber (digits v : Nat) : List Char :=
  ['0', 'x'] ++ (List.range digits).reverse.map fun j => hexChar (v / 16 ^ j % 16)

/-- `V` and one digit (R97). -/
def shownRegister (x : RegIndex) : List Char := ['V', hexChar x.toNat]

/-- The operands in order, each as R97's table prints it, the literal ones among them (R94, last column). -/
def shownOperands : Instr → List (List Char)
  | .cls | .ret | .low | .high => []
  | .jp nnn | .call nnn => [shownNumber 3 nnn.toNat]
  | .seImm x kk | .sneImm x kk | .ldImm x kk | .addImm x kk | .rnd x kk => [shownRegister x, shownNumber 2 kk.toNat]
  | .seReg x y | .sneReg x y | .ldReg x y | .orReg x y | .andReg x y | .xorReg x y => [shownRegister x, shownRegister y]
  | .addReg x y | .sub x y | .subn x y => [shownRegister x, shownRegister y]
  | .shr x _ | .shl x _ | .skp x | .sknp x => [shownRegister x]
  | .ldI nnn => [['I'], shownNumber 3 nnn.toNat]
  | .jpV0 nnn => [['V', '0'], shownNumber 3 nnn.toNat]
  | .drw x y n => [shownRegister x, shownRegister y, shownNumber 1 n.toNat]
  | .ldVxDt x => [shownRegister x, ['D', 'T']]
  | .ldVxK x => [shownRegister x, ['K']]
  | .ldDtVx x => [['D', 'T'], shownRegister x]
  | .ldStVx x => [['S', 'T'], shownRegister x]
  | .addI x => [['I'], shownRegister x]
  | .ldF x => [['F'], shownRegister x]
  | .ldB x => [['B'], shownRegister x]
  | .storeRegs x => [['[', 'I', ']'], shownRegister x]
  | .loadRegs x => [shownRegister x, ['[', 'I', ']']]

/-- The mnemonic (R94, R97). -/
def shownMnemonic : Instr → List Char
  | .cls => ['C', 'L', 'S']
  | .ret => ['R', 'E', 'T']
  | .low => ['L', 'O', 'W']
  | .high => ['H', 'I', 'G', 'H']
  | .jp _ | .jpV0 _ => ['J', 'P']
  | .call _ => ['C', 'A', 'L', 'L']
  | .seImm _ _ | .seReg _ _ => ['S', 'E']
  | .sneImm _ _ | .sneReg _ _ => ['S', 'N', 'E']
  | .addImm _ _ | .addReg _ _ | .addI _ => ['A', 'D', 'D']
  | .orReg _ _ => ['O', 'R']
  | .andReg _ _ => ['A', 'N', 'D']
  | .xorReg _ _ => ['X', 'O', 'R']
  | .sub _ _ => ['S', 'U', 'B']
  | .shr _ _ => ['S', 'H', 'R']
  | .subn _ _ => ['S', 'U', 'B', 'N']
  | .shl _ _ => ['S', 'H', 'L']
  | .rnd _ _ => ['R', 'N', 'D']
  | .drw _ _ _ => ['D', 'R', 'W']
  | .skp _ => ['S', 'K', 'P']
  | .sknp _ => ['S', 'K', 'N', 'P']
  | .ldImm _ _ | .ldReg _ _ | .ldI _ | .ldVxDt _ | .ldVxK _ | .ldDtVx _ | .ldStVx _ => ['L', 'D']
  | .ldF _ | .ldB _ | .storeRegs _ | .loadRegs _ => ['L', 'D']

/-- "The string is the mnemonic, one space, then the operands separated by a comma and one space" (R97); the mnemonic
alone where there is no operand. -/
def shownText (i : Instr) : List Char :=
  match shownOperands i with
  | [] => shownMnemonic i
  | ops => shownMnemonic i ++ [' '] ++ [',', ' '].intercalate ops

end Sys2Proof.Machine
end

