-- ==== Sys2Proof/Certificates/Slice0/Obligations.lean ====
section
/-! DEFINITION. The statements of the model, one `def Obligations.<Name> : Prop` each, from the numbered rules of
spec/. "the spec's own decision D<n>" in a docstring says that the clause is a choice the spec marks as its own
(92_eei_decisions.md), "log <n>" that it is the model's (notes/assumptions/). -/
open Sys2Proof Sys2Proof.Machine

/-! ### Reset and the invariant -/

/-- R39: what RESET leaves, and `run_state` paused at power-on. The values of memory, V, stack, pc, sp and display
are the source's; those of I, DT, ST, mode, the keys and the wait are the spec's own decision D32, those of the fault
registers D8; that power-on and the first RESET are one state is the model's choice (log 4). -/
def Obligations.ResetValues : Prop :=
  (∀ a, State.reset.readByte a = 0x00) ∧ (∀ j, State.reset.getV j = 0x00) ∧
  (∀ j : Fin 16, State.reset.stack[j] = 0x0000) ∧ State.reset.pc = 0x0200 ∧ State.reset.sp.val = 0 ∧
  (∀ px py, State.reset.pixel px py = false) ∧
  State.reset.i = 0x0000 ∧ State.reset.dt = 0x00 ∧ State.reset.st = 0x00 ∧ State.reset.mode = .standard ∧
  (∀ k : Fin 16, State.reset.key[k] = false) ∧ State.reset.waitKey = false ∧ State.reset.waitReg = 0 ∧
  State.reset.fault = .none ∧ State.reset.faultInfo = 0x0000 ∧ State.reset.runState = .paused

/-- The state after reset meets the invariant of R38, R251 and the memory's canonical form. -/
def Obligations.ResetMeetsInvariant : Prop := StateInv State.reset

/-- R38 and more: every step, an event of the host as much as a cycle, keeps the invariant. Parts of it rest on the
spec's own decisions D6, D7, D8, D9, D11, D19 and D26. -/
def Obligations.EveryStepKeepsInvariant : Prop :=
  ∀ s s' : State, StateInv s → step s = .next s' → StateInv s'

/-! ### The step -/

/-- R126: when it is the core's turn, the core is enabled and the word at pc decodes to `i`, the step is `exec` of `i`
and then, unless `i` raised a fault of its own, the check of the new pc. The same with a turn of the core at the head
of the schedule, which the step takes off first (the schedule is the model's, log 1). -/
def Obligations.StepRunsDecodedInstruction : Prop :=
  (∀ (s : State) (i : Instr), AtInstr s i → i.wf = true →
    step s = match exec i s with
      | .next t => .next (if t.fault = .none then t.checkPc else t)
      | .fault f => .fault f
      | .refused r => .refused r) ∧
  (∀ (s : State) (rest : List Turn), step { s with schedule := .core :: rest } = coreTurn { s with schedule := rest }) ∧
  (∀ s : State, s.schedule = [] → step s = coreTurn s)

/-- R255 and R256 (the spec's own decisions D6 and D7): after an instruction that raised no fault of its own, a new pc
above 0xFFE records PcOutOfRange, an odd one up to 0xFFE PcMisaligned, with the new pc as information and every effect
of the instruction kept; any other new pc leaves the instruction's state as it is. -/
def Obligations.NewPcIsChecked : Prop :=
  ∀ (s t : State) (i : Instr), AtInstr s i → exec i s = .next t → t.fault = .none →
    (0xFFE < t.pc.toNat →
      step s = .next { t with fault := .pcOutOfRange, faultInfo := t.pc, runState := .paused }) ∧
    (t.pc.toNat ≤ 0xFFE → t.pc.toNat % 2 = 1 →
      step s = .next { t with fault := .pcMisaligned, faultInfo := t.pc, runState := .paused }) ∧
    (t.pc.toNat ≤ 0xFFE → t.pc.toNat % 2 = 0 → step s = .next t)

/-- R128: on a decode miss the cycle records DecodeMiss with the fetched word and changes nothing else; pc still
addresses the word. -/
def Obligations.DecodeMissStopsTheCore : Prop :=
  ∀ s : State, s.enabled = true → s.schedule = [] → pcLegal s.pc →
    decodeWord (s.readWord s.pc.toNat) = none →
    step s = .next { s with
      fault := .decodeMiss, faultInfo := s.readWord s.pc.toNat, runState := .paused }

/-- R127: a cycle is enabled exactly when the core is running, unfaulted and not waiting; a disabled core changes
nothing, whatever disables it; the host's events apply in every state; only KEY_DOWN or a RESET lifts a key wait. The
turns of the schedule are the model's (log 1), and so is the idle turn of a disabled core, a step that changes nothing
(log 7). -/
def Obligations.CycleIsEnabledExactly : Prop :=
  (∀ s : State, s.enabled = true ↔ s.runState = .running ∧ s.fault = .none ∧ s.waitKey = false) ∧
  (∀ s : State, s.schedule = [] → s.runState = .paused ∨ s.fault ≠ .none ∨ s.waitKey = true → step s = .next s) ∧
  (∀ s : State, s.schedule = [] → s.runState = .running → s.fault = .none → s.waitKey = false →
    step s = cycle s) ∧
  (∀ (s : State) (e : HostEvent) (rest : List Turn), s.schedule = .event e :: rest →
    step s = applyEvent e { s with schedule := rest }) ∧
  (∀ s t : State, s.waitKey = true → step s = .next t → t.waitKey = false →
    ∃ rest, (∃ k, s.schedule = .event (.keyDown k) :: rest) ∨ s.schedule = .event .reset :: rest ∨
      ∃ bytes addr, s.schedule = .event (.loadRom bytes addr) :: rest)

/-- R34 and R260 (the spec's own decisions D8 and D42): a recorded fault, its information and pc stay through every
step whose turn is no RESET, alone or as the first half of LOAD_ROM; a step that is one clears the fault and puts pc to
0x200. (Turns: log 1.) -/
def Obligations.FaultIsStickyUntilReset : Prop :=
  ∀ s t : State, s.fault ≠ .none → step s = .next t →
    ((∀ rest, s.schedule ≠ .event .reset :: rest ∧
        ∀ bytes addr, s.schedule ≠ .event (.loadRom bytes addr) :: rest) →
      t.fault = s.fault ∧ t.faultInfo = s.faultInfo ∧ t.pc = s.pc) ∧
    ((∃ rest, s.schedule = .event .reset :: rest ∨
        ∃ bytes addr, s.schedule = .event (.loadRom bytes addr) :: rest) →
      t.fault = .none ∧ t.faultInfo = 0x0000 ∧ t.pc = 0x0200)

/-- R251, R258 and R259 (the spec's own decisions D8, D9 and D11): an instruction raises no fault but StackOverflow,
StackUnderflow or MemRange, each only under its own condition and with its own information, and a raised fault changes
nothing but the fault registers and `run_state`. -/
def Obligations.PreciseFaultsChangeNothingElse : Prop :=
  ∀ (i : Instr) (s t : State), s.fault = .none → exec i s = .next t → t.fault ≠ .none →
    t = { s with fault := t.fault, faultInfo := t.faultInfo, runState := .paused } ∧
    ((∃ nnn, i = .call nnn ∧ s.sp.val = 16 ∧ t.fault = .stackOverflow ∧ t.faultInfo = s.pc) ∨
     (i = .ret ∧ s.sp.val = 0 ∧ t.fault = .stackUnderflow ∧ t.faultInfo = s.pc) ∨
     (∃ n, accessCount i = some n ∧ 0 < n ∧ 0xFFF < s.i.toNat + n - 1 ∧
        t.fault = .memRange ∧ t.faultInfo = s.i))

/-- From every state that meets the invariant a step answers a next state, unless the host's event at the head of the
schedule names a key index above 15, which is refused (R264, U11; the refusal is the spec's treatment, the invariant
the model's). No instruction and no word stops the machine. -/
def Obligations.StepStopsOnlyOutsideTheInterface : Prop :=
  ∀ s : State, StateInv s →
    (∃ t, step s = .next t) ∨
    (∃ k rest, 16 ≤ k ∧
      (s.schedule = .event (.keyDown k) :: rest ∨ s.schedule = .event (.keyUp k) :: rest) ∧
      step s = .refused (.keyIndexOutOfRange k))

/-- R129: an instruction that raised no fault of its own leaves pc + 4 for a taken skip, pc + 2 for a skip not taken and
for every instruction that is neither a skip nor one of RET, JP, CALL and JP V0 (LD Vx, K among them). -/
def Obligations.PcAdvancesByTwoOrFour : Prop :=
  ∀ (i : Instr) (s t : State), s.fault = .none → exec i s = .next t → t.fault = .none →
    (pcRule s i = .plain → t.pc = s.pc + 2) ∧
    (pcRule s i = .skip true → t.pc = s.pc + 4) ∧
    (pcRule s i = .skip false → t.pc = s.pc + 2) ∧
    (pcRule s i = .explicit ↔ i = .ret ∨ ∃ nnn, i = .jp nnn ∨ i = .call nnn ∨ i = .jpV0 nnn)

/-- The frame of every instruction, the "written by" column of R20: each piece of state but V and pc is unchanged by
every instruction that the column does not name for it; `run_state` and the fault registers change only by fault entry.
The last clauses are about the model's own fields (logs 1, 2, 3). -/
def Obligations.EachPieceHasOnlyItsWriters : Prop :=
  ∀ (i : Instr) (s t : State), exec i s = .next t →
    ((∀ x, i ≠ .ldB x ∧ i ≠ .storeRegs x) → SameMemory s t ∧ t.mem = s.mem) ∧
    ((∀ x nnn, i ≠ .ldI nnn ∧ i ≠ .addI x ∧ i ≠ .ldF x) → t.i = s.i) ∧
    ((∀ nnn, i ≠ .call nnn) → t.stack = s.stack) ∧
    ((∀ nnn, i ≠ .call nnn ∧ i ≠ .ret) → t.sp = s.sp) ∧
    ((∀ x, i ≠ .ldDtVx x) → t.dt = s.dt) ∧
    ((∀ x, i ≠ .ldStVx x) → t.st = s.st) ∧
    ((∀ x y n, i ≠ .cls ∧ i ≠ .low ∧ i ≠ .high ∧ i ≠ .drw x y n) → t.fb = s.fb) ∧
    (i ≠ .low ∧ i ≠ .high → t.mode = s.mode) ∧
    t.key = s.key ∧
    ((∀ x, i ≠ .ldVxK x) → t.waitKey = s.waitKey ∧ t.waitReg = s.waitReg) ∧
    ((t.runState = s.runState ∧ t.fault = s.fault ∧ t.faultInfo = s.faultInfo) ∨
      (t.runState = .paused ∧ t.fault ≠ .none ∧ t.pc = s.pc)) ∧
    t.config = s.config ∧ t.schedule = s.schedule ∧ ((∀ x kk, i ≠ .rnd x kk) → t.draws = s.draws)

/-- The registers each instruction may write, all others unchanged (R23 for VF: only the six of its table write it as a
flag; the spec's own decisions D14, D15 and D18 for those that do not). -/
def Obligations.EachRegisterHasOnlyItsWriters : Prop :=
  ∀ (i : Instr) (s t : State) (j : RegIndex), exec i s = .next t → ¬mayWriteV i j → t.getV j = s.getV j

/-- R28 and R235: no instruction reads ST, so two states that differ in ST alone stay alike but for ST, and all else an
instruction does is the same. -/
def Obligations.SoundTimerIsReadByNothing : Prop :=
  ∀ (i : Instr) (s t : State) (b : Byte), exec i s = .next t →
    ∃ t', exec i { s with st := b } = .next t' ∧ { t' with st := 0 } = { t with st := 0 }

/-- R299 (the spec's own decision D43): a run that has ended well, at a `JP` to its own address, has a core that is
running, unfaulted and not waiting (a paused or waiting core has not ended), and every further cycle leaves the state
unchanged: a turn of the core taken off the schedule changes only the schedule, and with an empty schedule the step
changes nothing. (Turns: log 1.) -/
def Obligations.JumpToSelfStays : Prop :=
  ∀ s : State, EndedWell s →
    s.enabled = true ∧ cycle s = .next s ∧
    (∀ rest, step { s with schedule := .core :: rest } = .next { s with schedule := rest }) ∧
    (s.schedule = [] → step s = .next s)

/-- R71 (the spec's own decision D36): the bytes a block store puts at the next instruction's address are what the next
fetch returns. -/
def Obligations.StoreIsSeenByTheNextFetch : Prop :=
  ∀ (s t : State) (x j k : RegIndex), AtInstr s (.storeRegs x) → s.mem.wf = true → s.i.toNat + x.toNat ≤ 0xFFF →
    s.pc.toNat + 2 ≤ 0xFFE → k.toNat = j.toNat + 1 → k.toNat ≤ x.toNat →
    s.i.toNat + j.toNat = s.pc.toNat + 2 → step s = .next t →
    fetch t = .ok (s.getV j ++ s.getV k)

/-! ### Encoding and dispatch -/

/-- Decoding the encoding of an instruction gives it back with every operand, on words and on bytes (R92, R94). -/
def Obligations.DecodeOfEncode : Prop :=
  ∀ i : Instr, i.wf = true →
    decodeWord (encode i) = some i ∧
    ∀ rest : List Byte, decodeBytes (encodeBytes i ++ rest) = .ok (i, rest)

/-- Encoding what a word decodes to gives the word back: a word has one meaning (R96) and no bit of it is dropped. For SHR
and SHL the latter holds because the model's constructors carry the y nibble that the instruction ignores (log 14). -/
def Obligations.EncodeOfDecode : Prop :=
  ∀ (w : Word) (i : Instr), decodeWord w = some i → encode i = w

/-- R124: on all 65536 words the four-level tree lookup and the flat mask-and-match scan agree. -/
def Obligations.TreeAgreesWithFlatTable : Prop :=
  ∀ w : Word, lookup w = lookupFlat w

/-- Every word that matches a registered pattern resolves to that pattern's handler, so no word matches two patterns (R94
and R124, the spec's own inferences); the minimal and the maximal word of a pattern do (R99). -/
def Obligations.EveryMatchingWordResolvesToItsHandler : Prop :=
  (∀ (o : Opcode) (w : Word), w &&& o.pattern.mask = o.pattern.matchBits → lookup w = some o) ∧
  (∀ o : Opcode, lookup o.pattern.matchBits = some o ∧
    lookup (o.pattern.matchBits ||| ~~~o.pattern.mask) = some o)

/-- R95 (the words left out by the spec's own decisions D2, D3 and D44): the words that decode to no instruction are
exactly the six sets of its table. -/
def Obligations.IllegalWordsAreTheSixSets : Prop :=
  ∀ w : Word, decodeWord w = none ↔
    (nibble0 w = 0x0 ∧ w ≠ 0x00E0 ∧ w ≠ 0x00EE ∧ w ≠ 0x00FE ∧ w ≠ 0x00FF) ∨
    (nibble0 w = 0x5 ∧ nibble3 w ≠ 0x0) ∨
    (nibble0 w = 0x8 ∧ nibble3 w ∈ [0x8, 0x9, 0xA, 0xB, 0xC, 0xD, 0xF]) ∨
    (nibble0 w = 0x9 ∧ nibble3 w ≠ 0x0) ∨
    (nibble0 w = 0xE ∧ w.extractLsb' 0 8 ∉ [0x9E, 0xA1]) ∨
    (nibble0 w = 0xF ∧
      w.extractLsb' 0 8 ∉ [0x07, 0x0A, 0x15, 0x18, 0x1E, 0x29, 0x33, 0x55, 0x65])

/-- R97's example words, written out, decode to the instructions their disassembly names. -/
def Obligations.ExampleWordsDecode : Prop :=
  decodeWord 0x00E0 = some .cls ∧ decodeWord 0x1204 = some (.jp 0x204) ∧
  decodeWord 0x2300 = some (.call 0x300) ∧ decodeWord 0x8014 = some (.addReg 0 1) ∧
  decodeWord 0x8A06 = some (.shr 0xA 0) ∧ decodeWord 0xB123 = some (.jpV0 0x123) ∧
  decodeWord 0xD015 = some (.drw 0 1 5) ∧ decodeWord 0xF265 = some (.loadRegs 2) ∧
  decodeWord 0xF033 = some (.ldB 0) ∧ decodeWord 0xE19E = some (.skp 1)

/-- R130: the query answers the text of the instruction at an even address up to 0xFFE, or "no handler" where the word
there decodes to nothing, and refuses other addresses (the spec's treatment U10); it depends on two bytes of memory and on
nothing else. The text is the mnemonic, one space, and the operands in R97's printed form separated by a comma and a space
(the spec's own decision D38), so each register digit and each immediate of the instruction stands in it (R131 (c)). -/
def Obligations.DisassemblyReadsTwoBytes : Prop :=
  (∀ (s t : State) (a : Nat), t.readByte a = s.readByte a → t.readByte (a + 1) = s.readByte (a + 1) →
    disasm t a = disasm s a) ∧
  (∀ (s : State) (i : Instr) (a : Nat), a % 2 = 0 → a ≤ 0xFFE → s.readWord a = encode i →
    disasm s a = .ok (some (disasmText i))) ∧
  (∀ (s : State) (a : Nat), a % 2 = 0 → a ≤ 0xFFE → decodeWord (s.readWord a) = none → disasm s a = .ok none) ∧
  (∀ (s : State) (a : Nat), a % 2 = 1 ∨ 0xFFE < a → disasm s a = .error (.disasmAddress a)) ∧
  (∀ i : Instr, (disasmText i).toList = shownText i) ∧
  (∀ i : Instr, ∀ op ∈ shownOperands i, op <:+: (disasmText i).toList)

/-! ### Control transfer -/

/-- R140, `RET`: with sp > 0 it lowers sp, takes pc from `stack[sp]` and changes nothing else; with sp = 0 it records
StackUnderflow (the fault registers are the spec's own decision D8). In a state of the invariant the pc fault happens
exactly when the popped value is 0x1000. -/
def Obligations.ReturnPopsTheStack : Prop :=
  decodeWord 0x00EE = some .ret ∧
  (∀ s : State, (h : 0 < s.sp.val) → ∃ t, exec .ret s = .next t ∧
    t.pc = s.stack[s.sp.val - 1]'(by omega) ∧ t.sp.val = s.sp.val - 1 ∧
    t = { s with pc := t.pc, sp := t.sp } ∧ SameMemory s t) ∧
  (∀ s : State, s.sp.val = 0 →
    exec .ret s = .next { s with fault := .stackUnderflow, faultInfo := s.pc, runState := .paused }) ∧
  (∀ s t : State, StateInv s → AtInstr s .ret → 0 < s.sp.val → step s = .next t →
    (t.fault = .pcOutOfRange ↔ t.pc = 0x1000) ∧ t.fault ≠ .pcMisaligned)

/-- R141, `JP addr`: pc becomes nnn and nothing else changes. The cycle then faults exactly on 0xFFF (PcOutOfRange) and
on an odd nnn below it (PcMisaligned, the spec's own decision D6). -/
def Obligations.JumpSetsPc : Prop :=
  ∀ (nnn : Addr) (s : State),
    decodeWord (0x1#4 ++ nnn) = some (.jp nnn) ∧
    (∃ t, exec (.jp nnn) s = .next t ∧ t.pc = nnn.setWidth 16 ∧ t = { s with pc := t.pc } ∧ SameMemory s t) ∧
    (∀ t, AtInstr s (.jp nnn) → step s = .next t →
      t.pc = nnn.setWidth 16 ∧
      (t.fault = .pcOutOfRange ↔ nnn = 0xFFF) ∧
      (t.fault = .pcMisaligned ↔ nnn.toNat % 2 = 1 ∧ nnn ≠ 0xFFF) ∧
      (t.fault = .none ↔ nnn.toNat % 2 = 0))

/-- R142, `CALL addr`: with sp < 16 it stores pc + 2 at `stack[sp]`, raises sp, takes pc from nnn and changes nothing
else; with sp = 16 it records StackOverflow whatever nnn is (R258, the spec's own decision D10) and the step ends
there. -/
def Obligations.CallPushesTheStack : Prop :=
  ∀ (nnn : Addr) (s : State),
    decodeWord (0x2#4 ++ nnn) = some (.call nnn) ∧
    (s.sp.val < 16 → ∃ t, exec (.call nnn) s = .next t ∧
      (∀ j : Fin 16, t.stack[j] = if j.val = s.sp.val then s.pc + 2 else s.stack[j]) ∧
      t.sp.val = s.sp.val + 1 ∧ t.pc = nnn.setWidth 16 ∧
      t = { s with stack := t.stack, sp := t.sp, pc := t.pc } ∧ SameMemory s t) ∧
    (s.sp.val = 16 →
      exec (.call nnn) s =
        .next { s with fault := .stackOverflow, faultInfo := s.pc, runState := .paused } ∧
      (AtInstr s (.call nnn) → step s =
        .next { s with fault := .stackOverflow, faultInfo := s.pc, runState := .paused }))

/-- R142 and R140 together: a `RET` executed where a `CALL` led returns to the instruction after the `CALL`, with sp as
before the `CALL` and every other piece of state but that stack entry too. -/
def Obligations.ReturnUndoesCall : Prop :=
  ∀ (nnn : Addr) (s t : State), s.sp.val < 16 → exec (.call nnn) s = .next t →
    ∃ u, exec .ret t = .next u ∧ u.pc = s.pc + 2 ∧ u.sp = s.sp ∧
      u = { s with pc := u.pc, stack := u.stack } ∧
      (∀ j : Fin 16, j.val ≠ s.sp.val → u.stack[j] = s.stack[j])

/-- R143 and R144, `SE Vx, byte` and `SNE Vx, byte`: pc + 4 when the condition holds, else pc + 2; nothing else
changes. The cycle then faults exactly on a new pc above 0xFFE (the fault keeps the new pc: the spec's own decision
D7). -/
def Obligations.SkipOnByte : Prop :=
  ∀ (x : RegIndex) (kk : Byte) (s : State),
    decodeWord (0x3#4 ++ x ++ kk) = some (.seImm x kk) ∧ decodeWord (0x4#4 ++ x ++ kk) = some (.sneImm x kk) ∧
    (∃ t, exec (.seImm x kk) s = .next t ∧ t.pc = (if s.getV x = kk then s.pc + 4 else s.pc + 2) ∧
      t = { s with pc := t.pc } ∧ SameMemory s t) ∧
    (∃ t, exec (.sneImm x kk) s = .next t ∧ t.pc = (if s.getV x ≠ kk then s.pc + 4 else s.pc + 2) ∧
      t = { s with pc := t.pc } ∧ SameMemory s t) ∧
    RangeFaultExactly s (.seImm x kk) ∧ RangeFaultExactly s (.sneImm x kk)

/-- R145 and R146, `SE Vx, Vy` and `SNE Vx, Vy`: pc + 4 when the condition holds, else pc + 2; nothing else changes;
with x = y the first always skips and the second never. The cycle then faults exactly on a new pc above 0xFFE (D7). -/
def Obligations.SkipOnRegister : Prop :=
  ∀ (x y : RegIndex) (s : State),
    decodeWord (0x5#4 ++ x ++ y ++ 0x0#4) = some (.seReg x y) ∧
    decodeWord (0x9#4 ++ x ++ y ++ 0x0#4) = some (.sneReg x y) ∧
    (∀ n : Nibble, n ≠ 0 → decodeWord (0x5#4 ++ x ++ y ++ n) = none ∧ decodeWord (0x9#4 ++ x ++ y ++ n) = none) ∧
    (∃ t, exec (.seReg x y) s = .next t ∧ t.pc = (if s.getV x = s.getV y then s.pc + 4 else s.pc + 2) ∧
      t = { s with pc := t.pc } ∧ SameMemory s t) ∧
    (∃ t, exec (.sneReg x y) s = .next t ∧ t.pc = (if s.getV x ≠ s.getV y then s.pc + 4 else s.pc + 2) ∧
      t = { s with pc := t.pc } ∧ SameMemory s t) ∧
    (x = y → ∃ t u, exec (.seReg x y) s = .next t ∧ t.pc = s.pc + 4 ∧
      exec (.sneReg x y) s = .next u ∧ u.pc = s.pc + 2) ∧
    RangeFaultExactly s (.seReg x y) ∧ RangeFaultExactly s (.sneReg x y)

/-- R147, `JP V0, addr` (V0 whatever n1 is: the spec's own decision D17): pc becomes nnn + V0 as an integer, at most
0x10FE, never reduced; nothing else changes. -/
def Obligations.JumpPlusV0SetsPc : Prop :=
  ∀ (nnn : Addr) (s : State),
    decodeWord (0xB#4 ++ nnn) = some (.jpV0 nnn) ∧
    ∃ t, exec (.jpV0 nnn) s = .next t ∧ t.pc.toNat = nnn.toNat + (s.getV 0).toNat ∧ t.pc.toNat ≤ 0x10FE ∧
      t = { s with pc := t.pc } ∧ SameMemory s t

/-! ### Register file and ALU -/

/-- R160 and R162, `LD Vx, byte` and `LD Vx, Vy`: one register is written, pc + 2, nothing else changes. -/
def Obligations.LoadByteAndMove : Prop :=
  ∀ (x y : RegIndex) (kk : Byte) (s : State),
    decodeWord (0x6#4 ++ x ++ kk) = some (.ldImm x kk) ∧
    decodeWord (0x8#4 ++ x ++ y ++ 0x0#4) = some (.ldReg x y) ∧
    (∃ t, exec (.ldImm x kk) s = .next t ∧ (∀ j, t.getV j = if j = x then kk else s.getV j) ∧
      t.pc = s.pc + 2 ∧ t = { s with v := t.v, pc := t.pc } ∧ SameMemory s t) ∧
    (∃ t, exec (.ldReg x y) s = .next t ∧ (∀ j, t.getV j = if j = x then s.getV y else s.getV j) ∧
      t.pc = s.pc + 2 ∧ t = { s with v := t.v, pc := t.pc } ∧ SameMemory s t)

/-- R161, `ADD Vx, byte`: the sum modulo 256, no flag (the spec's own decision D15): VF changes only as the
destination. -/
def Obligations.AddByteWrapsWithoutFlag : Prop :=
  ∀ (x : RegIndex) (kk : Byte) (s : State),
    decodeWord (0x7#4 ++ x ++ kk) = some (.addImm x kk) ∧
    ∃ t, exec (.addImm x kk) s = .next t ∧ (t.getV x).toNat = ((s.getV x).toNat + kk.toNat) % 256 ∧
      (∀ j, j ≠ x → t.getV j = s.getV j) ∧
      t.pc = s.pc + 2 ∧ t = { s with v := t.v, pc := t.pc } ∧ SameMemory s t

/-- R163, R164 and R165, `OR`, `AND`, `XOR`: bitwise on all eight bits, VF not written (the spec's own decision D14)
but as the destination. -/
def Obligations.LogicIsBitwiseWithoutFlag : Prop :=
  ∀ (x y : RegIndex) (s : State),
    decodeWord (0x8#4 ++ x ++ y ++ 0x1#4) = some (.orReg x y) ∧
    decodeWord (0x8#4 ++ x ++ y ++ 0x2#4) = some (.andReg x y) ∧
    decodeWord (0x8#4 ++ x ++ y ++ 0x3#4) = some (.xorReg x y) ∧
    (∃ t, exec (.orReg x y) s = .next t ∧
      (∀ b < 8, (t.getV x).getLsbD b = ((s.getV x).getLsbD b || (s.getV y).getLsbD b)) ∧
      (∀ j, j ≠ x → t.getV j = s.getV j) ∧
      t.pc = s.pc + 2 ∧ t = { s with v := t.v, pc := t.pc } ∧ SameMemory s t) ∧
    (∃ t, exec (.andReg x y) s = .next t ∧
      (∀ b < 8, (t.getV x).getLsbD b = ((s.getV x).getLsbD b && (s.getV y).getLsbD b)) ∧
      (∀ j, j ≠ x → t.getV j = s.getV j) ∧
      t.pc = s.pc + 2 ∧ t = { s with v := t.v, pc := t.pc } ∧ SameMemory s t) ∧
    (∃ t, exec (.xorReg x y) s = .next t ∧
      (∀ b < 8, (t.getV x).getLsbD b = ((s.getV x).getLsbD b ^^ (s.getV y).getLsbD b)) ∧
      (∀ j, j ≠ x → t.getV j = s.getV j) ∧
      t.pc = s.pc + 2 ∧ t = { s with v := t.v, pc := t.pc } ∧ SameMemory s t)

/-- R166, `ADD Vx, Vy`: the sum modulo 256, then VF is the carry of the 9-bit sum, written last (the spec's own
decision D12), so that with x = 0xF only the flag remains. -/
def Obligations.AddRegistersSetsCarry : Prop :=
  ∀ (x y : RegIndex) (s : State),
    decodeWord (0x8#4 ++ x ++ y ++ 0x4#4) = some (.addReg x y) ∧
    ∃ t, exec (.addReg x y) s = .next t ∧
      t.getV 0xF = (if 0xFF < (s.getV x).toNat + (s.getV y).toNat then 0x01 else 0x00) ∧
      (x ≠ 0xF → (t.getV x).toNat = ((s.getV x).toNat + (s.getV y).toNat) % 256) ∧
      (∀ j, j ≠ x → j ≠ 0xF → t.getV j = s.getV j) ∧
      t.pc = s.pc + 2 ∧ t = { s with v := t.v, pc := t.pc } ∧ SameMemory s t

/-- R167 and R169, `SUB Vx, Vy` and `SUBN Vx, Vy`: the difference modulo 256 in one order and the other, then VF is 1
when no borrow occurs, equal operands among them (the spec's own decision D16), written last (D12). -/
def Obligations.SubtractsSetNoBorrow : Prop :=
  ∀ (x y : RegIndex) (s : State),
    decodeWord (0x8#4 ++ x ++ y ++ 0x5#4) = some (.sub x y) ∧
    decodeWord (0x8#4 ++ x ++ y ++ 0x7#4) = some (.subn x y) ∧
    (∃ t, exec (.sub x y) s = .next t ∧
      t.getV 0xF = (if (s.getV y).toNat ≤ (s.getV x).toNat then 0x01 else 0x00) ∧
      (x ≠ 0xF → (t.getV x).toNat = ((s.getV x).toNat + 256 - (s.getV y).toNat) % 256) ∧
      (∀ j, j ≠ x → j ≠ 0xF → t.getV j = s.getV j) ∧
      t.pc = s.pc + 2 ∧ t = { s with v := t.v, pc := t.pc } ∧ SameMemory s t) ∧
    (∃ t, exec (.subn x y) s = .next t ∧
      t.getV 0xF = (if (s.getV x).toNat ≤ (s.getV y).toNat then 0x01 else 0x00) ∧
      (x ≠ 0xF → (t.getV x).toNat = ((s.getV y).toNat + 256 - (s.getV x).toNat) % 256) ∧
      (∀ j, j ≠ x → j ≠ 0xF → t.getV j = s.getV j) ∧
      t.pc = s.pc + 2 ∧ t = { s with v := t.v, pc := t.pc } ∧ SameMemory s t)

/-- R168 and R170, `SHR Vx` and `SHL Vx`: Vx itself moves by one place (the spec's own decision D13), the vacated bit is
0, VF is the bit shifted out, written last (D12); the y nibble has no effect. -/
def Obligations.ShiftsSetTheBitShiftedOut : Prop :=
  ∀ (x y : RegIndex) (s : State),
    decodeWord (0x8#4 ++ x ++ y ++ 0x6#4) = some (.shr x y) ∧
    decodeWord (0x8#4 ++ x ++ y ++ 0xE#4) = some (.shl x y) ∧
    (∃ t, exec (.shr x y) s = .next t ∧
      (t.getV 0xF).toNat = (s.getV x).toNat % 2 ∧
      (x ≠ 0xF → (t.getV x).toNat = (s.getV x).toNat / 2) ∧
      (∀ j, j ≠ x → j ≠ 0xF → t.getV j = s.getV j) ∧
      t.pc = s.pc + 2 ∧ t = { s with v := t.v, pc := t.pc } ∧ SameMemory s t) ∧
    (∃ t, exec (.shl x y) s = .next t ∧
      (t.getV 0xF).toNat = (s.getV x).toNat / 128 ∧
      (x ≠ 0xF → (t.getV x).toNat = 2 * (s.getV x).toNat % 256) ∧
      (∀ j, j ≠ x → j ≠ 0xF → t.getV j = s.getV j) ∧
      t.pc = s.pc + 2 ∧ t = { s with v := t.v, pc := t.pc } ∧ SameMemory s t) ∧
    (∀ y' : RegIndex, exec (.shr x y') s = exec (.shr x y) s ∧ exec (.shl x y') s = exec (.shl x y) s)

/-- R171, `RND Vx, byte`: Vx becomes some byte masked by kk, the draw of this cycle (a free value, the spec's own
decision D30 and log 2), one draw is used up, no flag; with kk = 0 the result is 0 whatever the draw. -/
def Obligations.RandomByteIsMasked : Prop :=
  ∀ (x : RegIndex) (kk : Byte) (s : State),
    decodeWord (0xC#4 ++ x ++ kk) = some (.rnd x kk) ∧
    ∃ t, exec (.rnd x kk) s = .next t ∧ t.getV x = Config.rnd s.draws &&& kk ∧
      (∀ b < 8, kk.getLsbD b = false → (t.getV x).getLsbD b = false) ∧
      (∀ j, j ≠ x → t.getV j = s.getV j) ∧
      t.pc = s.pc + 2 ∧ t = { s with v := t.v, pc := t.pc, draws := s.draws + 1 } ∧ SameMemory s t

/-! ### Index register and memory -/

/-- R190, `LD I, addr`: I becomes nnn, pc + 2, nothing else changes. -/
def Obligations.LoadIndexSetsI : Prop :=
  ∀ (nnn : Addr) (s : State),
    decodeWord (0xA#4 ++ nnn) = some (.ldI nnn) ∧
    ∃ t, exec (.ldI nnn) s = .next t ∧ t.i = nnn.setWidth 16 ∧ t.i.toNat ≤ 0xFFF ∧
      t.pc = s.pc + 2 ∧ t = { s with i := t.i, pc := t.pc } ∧ SameMemory s t

/-- R191, `ADD I, Vx`: the sum modulo 65536, no flag and no fault (the spec's own decision D18). -/
def Obligations.AddIndexWrapsAt16Bits : Prop :=
  ∀ (x : RegIndex) (s : State),
    decodeWord (0xF#4 ++ x ++ 0x1E#8) = some (.addI x) ∧
    ∃ t, exec (.addI x) s = .next t ∧ t.i.toNat = (s.i.toNat + (s.getV x).toNat) % 65536 ∧
      t.pc = s.pc + 2 ∧ t = { s with i := t.i, pc := t.pc } ∧ SameMemory s t

/-- R192, `LD F, Vx` (the spec's own decision D19): I becomes FONT_BASE + 5 * the low nibble of Vx, for every value of
the parameter; nothing is read from memory and nothing else changes. -/
def Obligations.GlyphAddressSetsI : Prop :=
  ∀ (x : RegIndex) (s : State),
    decodeWord (0xF#4 ++ x ++ 0x29#8) = some (.ldF x) ∧
    ∃ t, exec (.ldF x) s = .next t ∧
      t.i.toNat = s.config.fontBase.toNat + 5 * ((s.getV x).toNat % 16) ∧
      t.pc = s.pc + 2 ∧ t = { s with i := t.i, pc := t.pc } ∧ SameMemory s t

/-- R193, `LD B, Vx`: with I + 2 at most 0xFFF, the hundreds, tens and ones digits of Vx (in this order by the spec's own
decision D20) stand at I, I + 1, I + 2, every other byte reads as before, and nothing but memory and pc changes. -/
def Obligations.BcdStoresThreeDigits : Prop :=
  ∀ (x : RegIndex) (s : State),
    decodeWord (0xF#4 ++ x ++ 0x33#8) = some (.ldB x) ∧
    (s.i.toNat + 2 ≤ 0xFFF → ∃ t, exec (.ldB x) s = .next t ∧
      (s.mem.wf = true →
        (t.readByte s.i.toNat).toNat = (s.getV x).toNat / 100 ∧
        (t.readByte (s.i.toNat + 1)).toNat = (s.getV x).toNat / 10 % 10 ∧
        (t.readByte (s.i.toNat + 2)).toNat = (s.getV x).toNat % 10 ∧
        (∀ a, a < s.i.toNat ∨ s.i.toNat + 2 < a → t.readByte a = s.readByte a)) ∧
      t.pc = s.pc + 2 ∧ t = { s with mem := t.mem, pc := t.pc })

/-- R194, `LD [I], Vx`: with I + x at most 0xFFF, Vk stands at I + k for k up to x, every other byte reads as before, and
nothing but memory and pc changes: I and the registers stay. -/
def Obligations.BlockStoreWritesV0ToVx : Prop :=
  ∀ (x : RegIndex) (s : State),
    decodeWord (0xF#4 ++ x ++ 0x55#8) = some (.storeRegs x) ∧
    (s.i.toNat + x.toNat ≤ 0xFFF → ∃ t, exec (.storeRegs x) s = .next t ∧
      (s.mem.wf = true →
        (∀ k : RegIndex, k.toNat ≤ x.toNat → t.readByte (s.i.toNat + k.toNat) = s.getV k) ∧
        (∀ a, a < s.i.toNat ∨ s.i.toNat + x.toNat < a → t.readByte a = s.readByte a)) ∧
      t.pc = s.pc + 2 ∧ t = { s with mem := t.mem, pc := t.pc })

/-- R195, `LD Vx, [I]`: with I + x at most 0xFFF, Vk becomes the byte at I + k for k up to x, the other registers, I and
memory stay. -/
def Obligations.BlockLoadReadsV0ToVx : Prop :=
  ∀ (x : RegIndex) (s : State),
    decodeWord (0xF#4 ++ x ++ 0x65#8) = some (.loadRegs x) ∧
    (s.i.toNat + x.toNat ≤ 0xFFF → ∃ t, exec (.loadRegs x) s = .next t ∧
      (∀ k : RegIndex, t.getV k = if k.toNat ≤ x.toNat then s.readByte (s.i.toNat + k.toNat) else s.getV k) ∧
      t.pc = s.pc + 2 ∧ t = { s with v := t.v, pc := t.pc } ∧ SameMemory s t)

/-- R194 and R195 together: after a block store, whatever the registers then become, a block load of the same x gives
V0 to Vx back as they were stored. -/
def Obligations.BlockLoadUndoesBlockStore : Prop :=
  ∀ (x : RegIndex) (s t : State) (w : Vector Byte 16), s.mem.wf = true → s.i.toNat + x.toNat ≤ 0xFFF →
    exec (.storeRegs x) s = .next t →
    ∃ u, exec (.loadRegs x) { t with v := w } = .next u ∧
      (∀ k : RegIndex, k.toNat ≤ x.toNat → u.getV k = s.getV k)

/-- R65 and R257 (the spec's own decisions D9 and D11): when the last byte of an access at I lies beyond 0xFFF, the
instruction records MemRange with I and changes nothing else. -/
def Obligations.MemRangeIsCheckedFirst : Prop :=
  ∀ (i : Instr) (n : Nat) (s : State), accessCount i = some n → 0 < n → 0xFFF < s.i.toNat + n - 1 →
    exec i s = .next { s with fault := .memRange, faultInfo := s.i, runState := .paused }

/-! ### Display -/

/-- R210, R211 and R212, `CLS`, `LOW` and `HIGH`: every pixel dark in either mode (the spec's own decisions D26 and D27),
the mode set by the latter two (D3), VF not written, nothing else changes. -/
def Obligations.ScreenInstructionsClear : Prop :=
  ∀ s : State,
    decodeWord 0x00E0 = some .cls ∧ decodeWord 0x00FE = some .low ∧ decodeWord 0x00FF = some .high ∧
    (∃ t, exec .cls s = .next t ∧ (∀ px py, t.pixel px py = false) ∧
      t.pc = s.pc + 2 ∧ t = { s with fb := t.fb, pc := t.pc } ∧ SameMemory s t) ∧
    (∃ t, exec .low s = .next t ∧ (∀ px py, t.pixel px py = false) ∧ t.mode = .standard ∧
      t.pc = s.pc + 2 ∧ t = { s with fb := t.fb, mode := t.mode, pc := t.pc } ∧ SameMemory s t) ∧
    (∃ t, exec .high s = .next t ∧ (∀ px py, t.pixel px py = false) ∧ t.mode = .extended ∧
      t.pc = s.pc + 2 ∧ t = { s with fb := t.fb, mode := t.mode, pc := t.pc } ∧ SameMemory s t)

/-- R213, `DRW Vx, Vy, nibble`, the loop of its pseudocode in closed form: with the sprite inside memory, a pixel changes
exactly when the sprite covers it (each pixel wrapped separately, bit 7 leftmost: the spec's own decisions D22, D23 and
D24), VF is 1 exactly when a covered pixel was lit and 0 otherwise, and nothing else changes. -/
def Obligations.DrawXorsTheSprite : Prop :=
  ∀ (x y : RegIndex) (n : Nibble) (s : State),
    decodeWord (0xD#4 ++ x ++ y ++ n) = some (.drw x y n) ∧
    (n = 0 ∨ s.i.toNat + n.toNat - 1 ≤ 0xFFF → ∃ t, exec (.drw x y n) s = .next t ∧
      (∀ px py, t.pixel px py ≠ s.pixel px py ↔
        SpriteCovers s (s.getV x).toNat (s.getV y).toNat n.toNat px py) ∧
      (t.getV 0xF = 0x01 ↔ ∃ px py, s.pixel px py = true ∧
        SpriteCovers s (s.getV x).toNat (s.getV y).toNat n.toNat px py) ∧
      (t.getV 0xF = 0x01 ∨ t.getV 0xF = 0x00) ∧ (∀ j, j ≠ 0xF → t.getV j = s.getV j) ∧
      t.pc = s.pc + 2 ∧ t = { s with v := t.v, fb := t.fb, pc := t.pc } ∧ SameMemory s t)

/-- R213 and the source's example: the same sprite drawn twice at the same place gives every pixel back; on a dark screen
the first draw leaves VF = 0, and the second VF = 1 if the sprite covers any pixel. (x and y are not F: the first draw
writes VF, and the second would read another coordinate.) -/
def Obligations.DrawTwiceRestores : Prop :=
  ∀ (x y : RegIndex) (n : Nibble) (s t u : State), x ≠ 0xF → y ≠ 0xF → s.fault = .none →
    exec (.drw x y n) s = .next t → t.fault = .none → exec (.drw x y n) t = .next u →
    (∀ px py, u.pixel px py = s.pixel px py) ∧
    ((∀ px py, s.pixel px py = false) →
      t.getV 0xF = 0x00 ∧
      (u.getV 0xF = 0x01 ↔ ∃ px py, SpriteCovers s (s.getV x).toNat (s.getV y).toNat n.toNat px py))

/-! ### Keys and timers -/

/-- R230 and R231, `SKP Vx` and `SKNP Vx`: the key is the low nibble of Vx (R236, the spec's own decision D28); pc + 4
when it is down, respectively up, else pc + 2; nothing else changes. The cycle then faults exactly on a new pc above
0xFFE (D7). -/
def Obligations.KeySkips : Prop :=
  ∀ (x : RegIndex) (s : State),
    decodeWord (0xE#4 ++ x ++ 0x9E#8) = some (.skp x) ∧ decodeWord (0xE#4 ++ x ++ 0xA1#8) = some (.sknp x) ∧
    (∃ t, exec (.skp x) s = .next t ∧
      t.pc = (if s.key[(s.getV x).toNat % 16] = true then s.pc + 4 else s.pc + 2) ∧
      t = { s with pc := t.pc } ∧ SameMemory s t) ∧
    (∃ t, exec (.sknp x) s = .next t ∧
      t.pc = (if s.key[(s.getV x).toNat % 16] = false then s.pc + 4 else s.pc + 2) ∧
      t = { s with pc := t.pc } ∧ SameMemory s t) ∧
    RangeFaultExactly s (.skp x) ∧ RangeFaultExactly s (.sknp x)

/-- R232, R234 and R235, `LD Vx, DT`, `LD DT, Vx` and `LD ST, Vx`: one move each, pc + 2, nothing else changes. -/
def Obligations.TimerMoves : Prop :=
  ∀ (x : RegIndex) (s : State),
    decodeWord (0xF#4 ++ x ++ 0x07#8) = some (.ldVxDt x) ∧ decodeWord (0xF#4 ++ x ++ 0x15#8) = some (.ldDtVx x) ∧
    decodeWord (0xF#4 ++ x ++ 0x18#8) = some (.ldStVx x) ∧
    (∃ t, exec (.ldVxDt x) s = .next t ∧ (∀ j, t.getV j = if j = x then s.dt else s.getV j) ∧
      t.pc = s.pc + 2 ∧ t = { s with v := t.v, pc := t.pc } ∧ SameMemory s t) ∧
    (∃ t, exec (.ldDtVx x) s = .next t ∧ t.dt = s.getV x ∧
      t.pc = s.pc + 2 ∧ t = { s with dt := t.dt, pc := t.pc } ∧ SameMemory s t) ∧
    (∃ t, exec (.ldStVx x) s = .next t ∧ t.st = s.getV x ∧
      t.pc = s.pc + 2 ∧ t = { s with st := t.st, pc := t.pc } ∧ SameMemory s t)

/-- R233 and R264, `LD Vx, K` (the spec's own decision D29): it sets the wait and records x, pc advances now, a key
already held does not complete it; no cycle is enabled while the core waits (R127), so its turns change nothing; the next
KEY_DOWN(k) puts k into Vx and ends the wait, and KEY_UP, TIMER_TICK and SET_RUN do not. The turns of the schedule are the
model's (log 1), and so is the idle turn of the waiting core, a step that changes nothing (log 7). -/
def Obligations.KeyWaitHoldsUntilKeyDown : Prop :=
  ∀ (x : RegIndex) (s : State),
    decodeWord (0xF#4 ++ x ++ 0x0A#8) = some (.ldVxK x) ∧
    ∃ t, exec (.ldVxK x) s = .next t ∧ t.waitKey = true ∧ t.waitReg = x ∧ t.pc = s.pc + 2 ∧
      t = { s with waitKey := t.waitKey, waitReg := t.waitReg, pc := t.pc } ∧ SameMemory s t ∧
      step { t with schedule := [] } = .next { t with schedule := [] } ∧
      (∀ k < 16, ∃ u, applyEvent (.keyDown k) t = .next u ∧ u.waitKey = false ∧ (u.getV x).toNat = k ∧
        u.pc = s.pc + 2) ∧
      (∀ (k : Nat) (r : RunState) (u : State), applyEvent (.keyUp k) t = .next u ∨ applyEvent .timerTick t = .next u ∨
        applyEvent (.setRun r) t = .next u → u.waitKey = true ∧ u.waitReg = x)

/-! ### The host's events -/

/-- R264, KEY_DOWN(k) (the completion of a wait is the spec's own decision D29, the refusal its treatment U11): key k is
down, a pending wait completes with k in `V[wait_reg]`, nothing else changes; an index above 15 is refused. -/
def Obligations.KeyDownPressesAndCompletes : Prop :=
  ∀ (k : Nat) (s : State),
    (k < 16 → ∃ t, applyEvent (.keyDown k) s = .next t ∧
      (∀ j : Fin 16, t.key[j] = if j.val = k then true else s.key[j]) ∧ t.waitKey = false ∧
      (∀ j, t.getV j = if s.waitKey = true ∧ j = s.waitReg then BitVec.ofNat 8 k else s.getV j) ∧
      t = { s with key := t.key, v := t.v, waitKey := t.waitKey } ∧ SameMemory s t) ∧
    (16 ≤ k → applyEvent (.keyDown k) s = .refused (.keyIndexOutOfRange k))

/-- R265, KEY_UP(k) with k from 0 to 15: key k is up and nothing else changes, the key wait not either. -/
def Obligations.KeyUpReleases : Prop :=
  ∀ (k : Nat) (s : State), k ≤ 15 →
    ∃ t, applyEvent (.keyUp k) s = .next t ∧
      (∀ j : Fin 16, t.key[j] = if j.val = k then false else s.key[j]) ∧
      t = { s with key := t.key } ∧ SameMemory s t

/-- R266, TIMER_TICK (the spec's own decision D31): each timer that is not zero counts down by one, a zero stays zero, and
nothing else changes. -/
def Obligations.TimerTickCountsDown : Prop :=
  ∀ s : State, ∃ t, applyEvent .timerTick s = .next t ∧
    t.dt.toNat = s.dt.toNat - 1 ∧ t.st.toNat = s.st.toNat - 1 ∧
    t = { s with dt := t.dt, st := t.st } ∧ SameMemory s t

/-- R267, SET_RUN: `run_state` takes the argument and nothing else changes: a fault and a key wait stay; the state it
already has changes nothing. -/
def Obligations.SetRunWritesOnlyRunState : Prop :=
  ∀ (r : RunState) (s : State), ∃ t, applyEvent (.setRun r) s = .next t ∧ t.runState = r ∧
    t = { s with runState := t.runState } ∧ SameMemory s t ∧ (s.runState = r → t = s)

/-- R290 (the spec's own decisions D8, D32 and D34): RESET puts every piece of state to its value of R39 and leaves
`run_state`; the model's own fields stay (logs 1, 2, 3). -/
def Obligations.ResetEventRestoresResetValues : Prop :=
  ∀ s : State, ∃ t, applyEvent .reset s = .next t ∧
    (∀ a, t.readByte a = 0x00) ∧ (∀ j, t.getV j = 0x00) ∧ (∀ j : Fin 16, t.stack[j] = 0x0000) ∧
    t.pc = 0x0200 ∧ t.sp.val = 0 ∧ (∀ px py, t.pixel px py = false) ∧ t.i = 0x0000 ∧ t.dt = 0x00 ∧ t.st = 0x00 ∧
    t.mode = .standard ∧ (∀ k : Fin 16, t.key[k] = false) ∧ t.waitKey = false ∧ t.waitReg = 0 ∧
    t.fault = .none ∧ t.faultInfo = 0x0000 ∧ t.runState = s.runState ∧
    t.config = s.config ∧ t.draws = s.draws ∧ t.schedule = s.schedule

/-- R291, LOAD: the result is success exactly when len + addr is at most 4096; then byte j stands at addr + j and every
other byte and every other piece of state is as before; on failure nothing at all changes. -/
def Obligations.LoadIsAllOrNothing : Prop :=
  ∀ (bytes : List Byte) (addr : Nat) (s : State),
    ((s.hostLoad bytes addr).2 = true ↔ bytes.length + addr ≤ 4096) ∧
    (bytes.length + addr ≤ 4096 → ∃ t, applyEvent (.load bytes addr) s = .next t ∧ t = { s with mem := t.mem } ∧
      (s.mem.wf = true →
        (∀ (j : Nat) (h : j < bytes.length), t.readByte (addr + j) = bytes[j]) ∧
        (∀ a, a < addr ∨ addr + bytes.length ≤ a → t.readByte a = s.readByte a))) ∧
    (4096 < bytes.length + addr → applyEvent (.load bytes addr) s = .next s)

/-- R292 (the spec's own decisions D34 and D41): from EVERY state LOAD_ROM is one event that leaves every piece of state
at its reset value (the values of the statement ResetValues) but for memory and `run_state`, which it does not change;
with an image that fits the memory holds it and 0x00 elsewhere, with one that does not it is all 0x00, and the result is
whether it fits. The model's own fields stay (logs 1, 2, 3). R294: so with LOAD_ROM at 0x200 and SET_RUN(running)
scheduled, two steps leave an enabled core at 0x200, from every state and not only from reset. (The schedule is log 1,
that these events bring a program to run log 5; that the state before is one after a RESET, power-on folded with the first
one, log 4.) -/
def Obligations.BootMakesTheCoreReady : Prop :=
  ∀ (bytes : List Byte) (addr : Nat) (s : State),
    ((s.hostLoadRom bytes addr).2 = true ↔ bytes.length + addr ≤ 4096) ∧
    (∃ t, applyEvent (.loadRom bytes addr) s = .next t ∧
      t = { State.reset with
        mem := t.mem, runState := s.runState, config := s.config, draws := s.draws, schedule := s.schedule } ∧
      (bytes.length + addr ≤ 4096 →
        (∀ (j : Nat) (h : j < bytes.length), t.readByte (addr + j) = bytes[j]) ∧
        (∀ a, a < addr ∨ addr + bytes.length ≤ a → t.readByte a = 0x00)) ∧
      (4096 < bytes.length + addr → ∀ a, t.readByte a = 0x00)) ∧
    (∃ t, Sys2Proof.core.run 2
        { s with schedule := [.event (.loadRom bytes 0x200), .event (.setRun .running)] } = .next t ∧
      t.enabled = true ∧ t.pc = 0x0200 ∧ t.schedule = [] ∧
      t = { State.reset with mem := t.mem, runState := .running, config := s.config, draws := s.draws } ∧
      (bytes.length ≤ 3584 →
        (∀ (j : Nat) (h : j < bytes.length), t.readByte (0x200 + j) = bytes[j]) ∧
        (∀ a, a < 0x200 ∨ 0x200 + bytes.length ≤ a → t.readByte a = 0x00)) ∧
      (3584 < bytes.length → ∀ a, t.readByte a = 0x00))
end

