-- ==== Sys2Proof/Laws/State.lean ====
section
/-! SUPPORT. What each update of the state does to each field: one lemma a field an update, so that no proof
unfolds a record update; and the same for the reads `getV`, `readByte` and `pixel`. -/
namespace Sys2Proof.Machine

/-! ### setV -/

@[simp] theorem State.setV_mem (s : State) (x : RegIndex) (a : Byte) : (s.setV x a).mem = s.mem := rfl
@[simp] theorem State.setV_v (s : State) (x : RegIndex) (a : Byte) : (s.setV x a).v = s.v.set x.toNat a x.isLt := rfl
@[simp] theorem State.setV_i (s : State) (x : RegIndex) (a : Byte) : (s.setV x a).i = s.i := rfl
@[simp] theorem State.setV_pc (s : State) (x : RegIndex) (a : Byte) : (s.setV x a).pc = s.pc := rfl
@[simp] theorem State.setV_stack (s : State) (x : RegIndex) (a : Byte) : (s.setV x a).stack = s.stack := rfl
@[simp] theorem State.setV_sp (s : State) (x : RegIndex) (a : Byte) : (s.setV x a).sp = s.sp := rfl
@[simp] theorem State.setV_dt (s : State) (x : RegIndex) (a : Byte) : (s.setV x a).dt = s.dt := rfl
@[simp] theorem State.setV_st (s : State) (x : RegIndex) (a : Byte) : (s.setV x a).st = s.st := rfl
@[simp] theorem State.setV_fb (s : State) (x : RegIndex) (a : Byte) : (s.setV x a).fb = s.fb := rfl
@[simp] theorem State.setV_mode (s : State) (x : RegIndex) (a : Byte) : (s.setV x a).mode = s.mode := rfl
@[simp] theorem State.setV_key (s : State) (x : RegIndex) (a : Byte) : (s.setV x a).key = s.key := rfl
@[simp] theorem State.setV_waitKey (s : State) (x : RegIndex) (a : Byte) : (s.setV x a).waitKey = s.waitKey := rfl
@[simp] theorem State.setV_waitReg (s : State) (x : RegIndex) (a : Byte) : (s.setV x a).waitReg = s.waitReg := rfl
@[simp] theorem State.setV_runState (s : State) (x : RegIndex) (a : Byte) : (s.setV x a).runState = s.runState := rfl
@[simp] theorem State.setV_fault (s : State) (x : RegIndex) (a : Byte) : (s.setV x a).fault = s.fault := rfl
@[simp] theorem State.setV_faultInfo (s : State) (x : RegIndex) (a : Byte) : (s.setV x a).faultInfo = s.faultInfo := rfl
@[simp] theorem State.setV_config (s : State) (x : RegIndex) (a : Byte) : (s.setV x a).config = s.config := rfl
@[simp] theorem State.setV_draws (s : State) (x : RegIndex) (a : Byte) : (s.setV x a).draws = s.draws := rfl
@[simp] theorem State.setV_schedule (s : State) (x : RegIndex) (a : Byte) : (s.setV x a).schedule = s.schedule := rfl
@[simp] theorem State.setV_readByte (s : State) (x : RegIndex) (a : Byte) (b : Nat) : (s.setV x a).readByte b = s.readByte b := rfl
@[simp] theorem State.setV_readWord (s : State) (x : RegIndex) (a : Byte) (b : Nat) : (s.setV x a).readWord b = s.readWord b := rfl
@[simp] theorem State.setV_pixel (s : State) (x : RegIndex) (a : Byte) (px py : Nat) : (s.setV x a).pixel px py = s.pixel px py := rfl

/-! ### setI -/

@[simp] theorem State.setI_mem (s : State) (a : Word) : (s.setI a).mem = s.mem := rfl
@[simp] theorem State.setI_v (s : State) (a : Word) : (s.setI a).v = s.v := rfl
@[simp] theorem State.setI_i (s : State) (a : Word) : (s.setI a).i = a := rfl
@[simp] theorem State.setI_pc (s : State) (a : Word) : (s.setI a).pc = s.pc := rfl
@[simp] theorem State.setI_stack (s : State) (a : Word) : (s.setI a).stack = s.stack := rfl
@[simp] theorem State.setI_sp (s : State) (a : Word) : (s.setI a).sp = s.sp := rfl
@[simp] theorem State.setI_dt (s : State) (a : Word) : (s.setI a).dt = s.dt := rfl
@[simp] theorem State.setI_st (s : State) (a : Word) : (s.setI a).st = s.st := rfl
@[simp] theorem State.setI_fb (s : State) (a : Word) : (s.setI a).fb = s.fb := rfl
@[simp] theorem State.setI_mode (s : State) (a : Word) : (s.setI a).mode = s.mode := rfl
@[simp] theorem State.setI_key (s : State) (a : Word) : (s.setI a).key = s.key := rfl
@[simp] theorem State.setI_waitKey (s : State) (a : Word) : (s.setI a).waitKey = s.waitKey := rfl
@[simp] theorem State.setI_waitReg (s : State) (a : Word) : (s.setI a).waitReg = s.waitReg := rfl
@[simp] theorem State.setI_runState (s : State) (a : Word) : (s.setI a).runState = s.runState := rfl
@[simp] theorem State.setI_fault (s : State) (a : Word) : (s.setI a).fault = s.fault := rfl
@[simp] theorem State.setI_faultInfo (s : State) (a : Word) : (s.setI a).faultInfo = s.faultInfo := rfl
@[simp] theorem State.setI_config (s : State) (a : Word) : (s.setI a).config = s.config := rfl
@[simp] theorem State.setI_draws (s : State) (a : Word) : (s.setI a).draws = s.draws := rfl
@[simp] theorem State.setI_schedule (s : State) (a : Word) : (s.setI a).schedule = s.schedule := rfl
@[simp] theorem State.setI_getV (s : State) (a : Word) (j : RegIndex) : (s.setI a).getV j = s.getV j := rfl
@[simp] theorem State.setI_readByte (s : State) (a : Word) (b : Nat) : (s.setI a).readByte b = s.readByte b := rfl
@[simp] theorem State.setI_readWord (s : State) (a : Word) (b : Nat) : (s.setI a).readWord b = s.readWord b := rfl
@[simp] theorem State.setI_pixel (s : State) (a : Word) (px py : Nat) : (s.setI a).pixel px py = s.pixel px py := rfl

/-! ### setPc -/

@[simp] theorem State.setPc_mem (s : State) (a : Word) : (s.setPc a).mem = s.mem := rfl
@[simp] theorem State.setPc_v (s : State) (a : Word) : (s.setPc a).v = s.v := rfl
@[simp] theorem State.setPc_i (s : State) (a : Word) : (s.setPc a).i = s.i := rfl
@[simp] theorem State.setPc_pc (s : State) (a : Word) : (s.setPc a).pc = a := rfl
@[simp] theorem State.setPc_stack (s : State) (a : Word) : (s.setPc a).stack = s.stack := rfl
@[simp] theorem State.setPc_sp (s : State) (a : Word) : (s.setPc a).sp = s.sp := rfl
@[simp] theorem State.setPc_dt (s : State) (a : Word) : (s.setPc a).dt = s.dt := rfl
@[simp] theorem State.setPc_st (s : State) (a : Word) : (s.setPc a).st = s.st := rfl
@[simp] theorem State.setPc_fb (s : State) (a : Word) : (s.setPc a).fb = s.fb := rfl
@[simp] theorem State.setPc_mode (s : State) (a : Word) : (s.setPc a).mode = s.mode := rfl
@[simp] theorem State.setPc_key (s : State) (a : Word) : (s.setPc a).key = s.key := rfl
@[simp] theorem State.setPc_waitKey (s : State) (a : Word) : (s.setPc a).waitKey = s.waitKey := rfl
@[simp] theorem State.setPc_waitReg (s : State) (a : Word) : (s.setPc a).waitReg = s.waitReg := rfl
@[simp] theorem State.setPc_runState (s : State) (a : Word) : (s.setPc a).runState = s.runState := rfl
@[simp] theorem State.setPc_fault (s : State) (a : Word) : (s.setPc a).fault = s.fault := rfl
@[simp] theorem State.setPc_faultInfo (s : State) (a : Word) : (s.setPc a).faultInfo = s.faultInfo := rfl
@[simp] theorem State.setPc_config (s : State) (a : Word) : (s.setPc a).config = s.config := rfl
@[simp] theorem State.setPc_draws (s : State) (a : Word) : (s.setPc a).draws = s.draws := rfl
@[simp] theorem State.setPc_schedule (s : State) (a : Word) : (s.setPc a).schedule = s.schedule := rfl
@[simp] theorem State.setPc_getV (s : State) (a : Word) (j : RegIndex) : (s.setPc a).getV j = s.getV j := rfl
@[simp] theorem State.setPc_readByte (s : State) (a : Word) (b : Nat) : (s.setPc a).readByte b = s.readByte b := rfl
@[simp] theorem State.setPc_readWord (s : State) (a : Word) (b : Nat) : (s.setPc a).readWord b = s.readWord b := rfl
@[simp] theorem State.setPc_pixel (s : State) (a : Word) (px py : Nat) : (s.setPc a).pixel px py = s.pixel px py := rfl

/-! ### raise -/

@[simp] theorem State.raise_mem (s : State) (f : FaultCode) (info : Word) : (s.raise f info).mem = s.mem := rfl
@[simp] theorem State.raise_v (s : State) (f : FaultCode) (info : Word) : (s.raise f info).v = s.v := rfl
@[simp] theorem State.raise_i (s : State) (f : FaultCode) (info : Word) : (s.raise f info).i = s.i := rfl
@[simp] theorem State.raise_pc (s : State) (f : FaultCode) (info : Word) : (s.raise f info).pc = s.pc := rfl
@[simp] theorem State.raise_stack (s : State) (f : FaultCode) (info : Word) : (s.raise f info).stack = s.stack := rfl
@[simp] theorem State.raise_sp (s : State) (f : FaultCode) (info : Word) : (s.raise f info).sp = s.sp := rfl
@[simp] theorem State.raise_dt (s : State) (f : FaultCode) (info : Word) : (s.raise f info).dt = s.dt := rfl
@[simp] theorem State.raise_st (s : State) (f : FaultCode) (info : Word) : (s.raise f info).st = s.st := rfl
@[simp] theorem State.raise_fb (s : State) (f : FaultCode) (info : Word) : (s.raise f info).fb = s.fb := rfl
@[simp] theorem State.raise_mode (s : State) (f : FaultCode) (info : Word) : (s.raise f info).mode = s.mode := rfl
@[simp] theorem State.raise_key (s : State) (f : FaultCode) (info : Word) : (s.raise f info).key = s.key := rfl
@[simp] theorem State.raise_waitKey (s : State) (f : FaultCode) (info : Word) : (s.raise f info).waitKey = s.waitKey := rfl
@[simp] theorem State.raise_waitReg (s : State) (f : FaultCode) (info : Word) : (s.raise f info).waitReg = s.waitReg := rfl
@[simp] theorem State.raise_runState (s : State) (f : FaultCode) (info : Word) : (s.raise f info).runState = .paused := rfl
@[simp] theorem State.raise_fault (s : State) (f : FaultCode) (info : Word) : (s.raise f info).fault = f := rfl
@[simp] theorem State.raise_faultInfo (s : State) (f : FaultCode) (info : Word) : (s.raise f info).faultInfo = info := rfl
@[simp] theorem State.raise_config (s : State) (f : FaultCode) (info : Word) : (s.raise f info).config = s.config := rfl
@[simp] theorem State.raise_draws (s : State) (f : FaultCode) (info : Word) : (s.raise f info).draws = s.draws := rfl
@[simp] theorem State.raise_schedule (s : State) (f : FaultCode) (info : Word) : (s.raise f info).schedule = s.schedule := rfl
@[simp] theorem State.raise_getV (s : State) (f : FaultCode) (info : Word) (j : RegIndex) : (s.raise f info).getV j = s.getV j := rfl
@[simp] theorem State.raise_readByte (s : State) (f : FaultCode) (info : Word) (b : Nat) : (s.raise f info).readByte b = s.readByte b := rfl
@[simp] theorem State.raise_readWord (s : State) (f : FaultCode) (info : Word) (b : Nat) : (s.raise f info).readWord b = s.readWord b := rfl
@[simp] theorem State.raise_pixel (s : State) (f : FaultCode) (info : Word) (px py : Nat) : (s.raise f info).pixel px py = s.pixel px py := rfl

/-! ### writeBytes -/

@[simp] theorem State.writeBytes_mem (s : State) (a : Nat) (bytes : List Byte) : (s.writeBytes a bytes).mem = s.mem.writeBytes a bytes := rfl
@[simp] theorem State.writeBytes_v (s : State) (a : Nat) (bytes : List Byte) : (s.writeBytes a bytes).v = s.v := rfl
@[simp] theorem State.writeBytes_i (s : State) (a : Nat) (bytes : List Byte) : (s.writeBytes a bytes).i = s.i := rfl
@[simp] theorem State.writeBytes_pc (s : State) (a : Nat) (bytes : List Byte) : (s.writeBytes a bytes).pc = s.pc := rfl
@[simp] theorem State.writeBytes_stack (s : State) (a : Nat) (bytes : List Byte) : (s.writeBytes a bytes).stack = s.stack := rfl
@[simp] theorem State.writeBytes_sp (s : State) (a : Nat) (bytes : List Byte) : (s.writeBytes a bytes).sp = s.sp := rfl
@[simp] theorem State.writeBytes_dt (s : State) (a : Nat) (bytes : List Byte) : (s.writeBytes a bytes).dt = s.dt := rfl
@[simp] theorem State.writeBytes_st (s : State) (a : Nat) (bytes : List Byte) : (s.writeBytes a bytes).st = s.st := rfl
@[simp] theorem State.writeBytes_fb (s : State) (a : Nat) (bytes : List Byte) : (s.writeBytes a bytes).fb = s.fb := rfl
@[simp] theorem State.writeBytes_mode (s : State) (a : Nat) (bytes : List Byte) : (s.writeBytes a bytes).mode = s.mode := rfl
@[simp] theorem State.writeBytes_key (s : State) (a : Nat) (bytes : List Byte) : (s.writeBytes a bytes).key = s.key := rfl
@[simp] theorem State.writeBytes_waitKey (s : State) (a : Nat) (bytes : List Byte) : (s.writeBytes a bytes).waitKey = s.waitKey := rfl
@[simp] theorem State.writeBytes_waitReg (s : State) (a : Nat) (bytes : List Byte) : (s.writeBytes a bytes).waitReg = s.waitReg := rfl
@[simp] theorem State.writeBytes_runState (s : State) (a : Nat) (bytes : List Byte) : (s.writeBytes a bytes).runState = s.runState := rfl
@[simp] theorem State.writeBytes_fault (s : State) (a : Nat) (bytes : List Byte) : (s.writeBytes a bytes).fault = s.fault := rfl
@[simp] theorem State.writeBytes_faultInfo (s : State) (a : Nat) (bytes : List Byte) : (s.writeBytes a bytes).faultInfo = s.faultInfo := rfl
@[simp] theorem State.writeBytes_config (s : State) (a : Nat) (bytes : List Byte) : (s.writeBytes a bytes).config = s.config := rfl
@[simp] theorem State.writeBytes_draws (s : State) (a : Nat) (bytes : List Byte) : (s.writeBytes a bytes).draws = s.draws := rfl
@[simp] theorem State.writeBytes_schedule (s : State) (a : Nat) (bytes : List Byte) : (s.writeBytes a bytes).schedule = s.schedule := rfl
@[simp] theorem State.writeBytes_getV (s : State) (a : Nat) (bytes : List Byte) (j : RegIndex) : (s.writeBytes a bytes).getV j = s.getV j := rfl
@[simp] theorem State.writeBytes_pixel (s : State) (a : Nat) (bytes : List Byte) (px py : Nat) : (s.writeBytes a bytes).pixel px py = s.pixel px py := rfl

/-! ### Derived updates -/

/-- Every register after one is written (R22: no register is hardwired). -/
theorem State.getV_setV (s : State) (x j : RegIndex) (a : Byte) :
    (s.setV x a).getV j = if j = x then a else s.getV j := by
  simp only [State.getV, State.setV, Vector.getElem_set, BitVec.toNat_inj]
  by_cases h : x = j
  · subst h; simp
  · simp [h, Ne.symm h]

/-- Every register after a flag-setting instruction: the flag is what VF holds (R172). -/
theorem State.getV_setVThenFlag (s : State) (x j : RegIndex) (a : Byte) (flag : Bool) :
    (s.setVThenFlag x a flag).getV j =
      if j = 0xF then flagByte flag else if j = x then a else s.getV j := by
  simp only [State.setVThenFlag, State.getV_setV, vf]

/-- The flag-setting write changes `v` alone. -/
theorem State.setVThenFlag_frame (s : State) (x : RegIndex) (a : Byte) (flag : Bool) :
    s.setVThenFlag x a flag = { s with v := (s.setVThenFlag x a flag).v } := rfl

/-- `pc <- pc + 2` as a write of pc. -/
theorem State.advance_eq (s : State) : s.advance = s.setPc (s.pc + 2) := rfl

/-- A skip as a write of pc. -/
theorem State.skipIf_eq (s : State) (c : Bool) :
    s.skipIf c = s.setPc (if c then s.pc + 4 else s.pc + 2) := rfl

end Sys2Proof.Machine
end

