-- ==== Sys2Proof/Laws/Cycle.lean ====
section
/-! SUPPORT. What each shared operation around an instruction can do, said once: push and pop, the pc check, the
fetch, the cycle, the core's turn, the step. -/
namespace Sys2Proof.Machine

/-- A push happens exactly when sp < 16; it stores at `stack[sp]`, raises sp and changes nothing else (R27, R142). -/
theorem push_eq {s : State} {a : Word} (h : s.sp.val < 16) :
    s.push a = some { s with stack := s.stack.set s.sp.val a h, sp := ⟨s.sp.val + 1, by omega⟩ } := by
  simp [State.push, h]

/-- No push with sp = 16 (R253). -/
theorem push_full {s : State} {a : Word} (h : s.sp.val = 16) : s.push a = none := by
  simp [State.push, h]

/-- A pop happens exactly when sp > 0; it reads `stack[sp - 1]`, lowers sp and changes nothing else (R27, R140). -/
theorem pop_eq {s : State} (h : 0 < s.sp.val) :
    s.pop = some (s.stack[s.sp.val - 1]'(by omega), { s with sp := ⟨s.sp.val - 1, by omega⟩ }) := by
  simp [State.pop, h]

/-- No pop with sp = 0 (R254). -/
theorem pop_empty {s : State} (h : s.sp.val = 0) : s.pop = none := by
  simp [State.pop, h]

/-- The pc check in its three cases (R255, R256). -/
theorem checkPc_cases (s : State) :
    (pcMax < s.pc.toNat ∧ s.checkPc = s.raise .pcOutOfRange s.pc) ∨
    (s.pc.toNat ≤ pcMax ∧ s.pc.toNat % 2 = 1 ∧ s.checkPc = s.raise .pcMisaligned s.pc) ∨
    (s.pc.toNat ≤ pcMax ∧ s.pc.toNat % 2 = 0 ∧ s.checkPc = s) := by
  unfold State.checkPc
  split
  · exact .inl ⟨‹_›, rfl⟩
  · split
    · exact .inr (.inl ⟨by omega, ‹_›, rfl⟩)
    · exact .inr (.inr ⟨by omega, by omega, rfl⟩)

/-- A legal pc passes the check. -/
theorem checkPc_legal {s : State} (h : s.pc.toNat ≤ pcMax) (he : s.pc.toNat % 2 = 0) : s.checkPc = s := by
  rw [State.checkPc, if_neg (by omega), if_neg (by omega)]

/-- A fetch at a legal pc reads the word there (R62, R66). -/
theorem fetch_eq {s : State} (h : s.pc.toNat ≤ pcMax) (he : s.pc.toNat % 2 = 0) :
    fetch s = .ok (s.readWord s.pc.toNat) := by
  rw [fetch, if_neg (by omega), if_neg (by omega)]

/-- A fetch that answers a word was at a legal pc. -/
theorem fetch_ok {s : State} {w : Word} (h : fetch s = .ok w) :
    s.pc.toNat ≤ pcMax ∧ s.pc.toNat % 2 = 0 ∧ w = s.readWord s.pc.toNat := by
  unfold fetch at h
  split at h
  · cases h
  · split at h
    · cases h
    · cases h; exact ⟨by omega, by omega, rfl⟩

/-- `settlePc` answers a next state exactly where the instruction did (R126). -/
theorem settlePc_next {r : Result} {s' : State} (h : settlePc r = .next s') :
    ∃ t, r = .next t ∧ s' = if t.fault = .none then t.checkPc else t := by
  cases r with
  | next t => exact ⟨t, rfl, by simpa [settlePc] using h.symm⟩
  | fault f => cases h
  | refused r => cases h

/-- Everything a cycle that answers a next state can have done: a decode miss, or the decoded instruction and then
the pc check (R126, R128). -/
theorem cycle_next {s s' : State} (h : cycle s = .next s') :
    s.pc.toNat ≤ pcMax ∧ s.pc.toNat % 2 = 0 ∧
      ((decodeWord (s.readWord s.pc.toNat) = none ∧ s' = s.raise .decodeMiss (s.readWord s.pc.toNat)) ∨
       ∃ i t, decodeWord (s.readWord s.pc.toNat) = some i ∧ exec i s = .next t ∧
         s' = if t.fault = .none then t.checkPc else t) := by
  unfold cycle at h
  split at h
  · cases h
  · rename_i w hw
    obtain ⟨hle, hev, rfl⟩ := fetch_ok hw
    refine ⟨hle, hev, ?_⟩
    split at h
    · rename_i hd
      cases h
      exact .inl ⟨hd, rfl⟩
    · rename_i i hd
      obtain ⟨t, ht, hs⟩ := settlePc_next h
      exact .inr ⟨i, t, hd, ht, hs⟩

/-- When a cycle is enabled (R127). -/
theorem enabled_iff (s : State) :
    s.enabled = true ↔ s.runState = .running ∧ s.fault = .none ∧ s.waitKey = false := by
  simp [State.enabled, and_assoc]

/-- Everything the core's turn can do: nothing when disabled, a cycle when enabled (R127). -/
theorem coreTurn_next {s s' : State} (h : coreTurn s = .next s') :
    (s.enabled = false ∧ s' = s) ∨ (s.enabled = true ∧ cycle s = .next s') := by
  unfold coreTurn at h
  split at h
  · exact .inr ⟨‹_›, h⟩
  · cases h
    exact .inl ⟨by simpa using ‹¬s.enabled = true›, rfl⟩

/-- Everything a step can do: an event of the host, or the core's turn (R268). -/
theorem step_next {s s' : State} (h : step s = .next s') :
    (∃ e rest, s.schedule = .event e :: rest ∧ applyEvent e { s with schedule := rest } = .next s') ∨
    (∃ rest, (s.schedule = .core :: rest ∨ (s.schedule = [] ∧ rest = [])) ∧
      coreTurn { s with schedule := rest } = .next s') := by
  unfold step takeTurn at h
  split at h
  · rename_i hs
    refine .inr ⟨[], .inr ⟨hs, rfl⟩, ?_⟩
    have : { s with schedule := [] } = s := by rw [← hs]
    rw [this]; exact h
  · exact .inr ⟨_, .inl ‹_›, h⟩
  · exact .inl ⟨_, _, ‹_›, h⟩

end Sys2Proof.Machine
end

