-- ==== Sys2Proof/Laws/Disassembly.lean ====
section
/-! SUPPORT. The digits and operands of the disassembly routines are the printed forms of 30_encoding.md R97. -/
namespace Sys2Proof.Machine

/-- A digit is the upper-case hexadecimal digit of its value (R97). -/
theorem hexDigit_eq : ∀ n : Nibble, hexDigit n = hexChar n.toNat := by decide

/-- A register's text (R97). -/
theorem regText_eq (x : RegIndex) : regText x = shownRegister x := by
  simp [regText, shownRegister, hexDigit_eq]

/-- A nibble's text: one digit (R97). -/
theorem nibbleText_eq (n : Nibble) : nibbleText n = shownNumber 1 n.toNat := by
  simp [nibbleText, shownNumber, hexDigit_eq, List.range_succ]
  congr 1
  omega

/-- A byte's text: two digits (R97). -/
theorem byteText_eq (b : Byte) : byteText b = shownNumber 2 b.toNat := by
  simp [byteText, shownNumber, hexDigit_eq, List.range_succ, BitVec.extractLsb'_toNat, Nat.shiftRight_eq_div_pow]

/-- An address's text: three digits (R97). -/
theorem addrText_eq (a : Addr) : addrText a = shownNumber 3 a.toNat := by
  simp [addrText, shownNumber, hexDigit_eq, List.range_succ, BitVec.extractLsb'_toNat, Nat.shiftRight_eq_div_pow]

end Sys2Proof.Machine
end

