-- ==== Sys2Proof/Laws/Display.lean ====
section
/-! SUPPORT. The laws of the framebuffer: what one inverted pixel, a cleared buffer and one plotted bit do to
every pixel. -/
namespace Sys2Proof.Machine

/-- Every pixel after one is inverted (R213). -/
theorem pixel_flip (fb : Framebuffer) {px py : Nat} (hx : px < 128) (hy : py < 64) (qx qy : Nat) :
    (fb.flip px py).pixel qx qy = (fb.pixel qx qy ^^ (decide (qx = px ∧ qy = py))) := by
  simp only [Framebuffer.flip, Framebuffer.pixel, hy, dif_pos]
  split
  · rename_i hq
    rw [Vector.getElem_set]
    by_cases h : py = qy
    · subst h
      simp only [if_true, BitVec.getLsbD_xor, BitVec.getLsbD_twoPow, hx, decide_true, Bool.true_and, and_true]
      congr 1
      by_cases h2 : px = qx <;> simp [h2, eq_comm]
    · simp [h, Ne.symm h]
  · rename_i hq
    have : ¬(qx = px ∧ qy = py) := by omega
    simp [this]

/-- A cleared buffer is dark everywhere (R210). -/
@[simp] theorem pixel_dark (px py : Nat) : Framebuffer.pixel Framebuffer.dark px py = false := by
  unfold Framebuffer.pixel Framebuffer.dark
  split <;> simp

/-- Outside the buffer every pixel reads dark. -/
theorem pixel_outside (fb : Framebuffer) {px py : Nat} (h : 128 ≤ px ∨ 64 ≤ py) : fb.pixel px py = false := by
  unfold Framebuffer.pixel
  split
  · exact BitVec.getLsbD_of_ge _ _ (by omega)
  · rfl

theorem ScreenMode.width_pos (m : ScreenMode) : 0 < m.width := by cases m <;> decide
theorem ScreenMode.height_pos (m : ScreenMode) : 0 < m.height := by cases m <;> decide
theorem ScreenMode.width_le (m : ScreenMode) : m.width ≤ 128 := by cases m <;> decide
theorem ScreenMode.height_le (m : ScreenMode) : m.height ≤ 64 := by cases m <;> decide

/-- One plotted bit inverts its pixel and notes whether it was lit (R213). -/
theorem plot_pixel (d : DrawState) {px py : Nat} (hx : px < 128) (hy : py < 64) (qx qy : Nat) :
    (plot d px py).fb.pixel qx qy = (d.fb.pixel qx qy ^^ (decide (qx = px ∧ qy = py))) :=
  pixel_flip d.fb hx hy qx qy

@[simp] theorem plot_coll (d : DrawState) (px py : Nat) :
    (plot d px py).coll = (d.coll || d.fb.pixel px py) := rfl

/-- A column draws only inside the active width and in its own row (R213 (b), R214). -/
theorem drawColumn_outside {w x0 py qx qy : Nat} (hw : 0 < w) (hw' : w ≤ 128) (hy : py < 64) (b : Byte)
    (d : DrawState) (c : Nat) (h : w ≤ qx ∨ qy ≠ py) :
    (drawColumn w x0 py b d c).fb.pixel qx qy = d.fb.pixel qx qy := by
  unfold drawColumn
  split
  · have hlt := Nat.mod_lt (x0 + c) hw
    rw [plot_pixel d (by omega) hy]
    have : ¬(qx = (x0 + c) % w ∧ qy = py) := by omega
    simp [this]
  · rfl

/-- A row draws only inside the active width and in its own buffer row (R213, R214). -/
theorem drawRow_outside {w x0 py qx qy : Nat} (hw : 0 < w) (hw' : w ≤ 128) (hy : py < 64) (b : Byte)
    (d : DrawState) (h : w ≤ qx ∨ qy ≠ py) : (drawRow w x0 py b d).fb.pixel qx qy = d.fb.pixel qx qy := by
  unfold drawRow
  generalize List.range 8 = l
  induction l generalizing d with
  | nil => rfl
  | cons c l ih => exact (ih _).trans (drawColumn_outside hw hw' hy b d c h)

/-- A draw leaves every pixel outside the active screen alone (R38 (c), R213, R214). -/
theorem drawSprite_outside (s : State) (x0 y0 n : Nat) {qx qy : Nat}
    (h : s.mode.width ≤ qx ∨ s.mode.height ≤ qy) :
    (drawSprite s x0 y0 n).fb.pixel qx qy = s.fb.pixel qx qy := by
  have hh := s.mode.height_pos
  have key : ∀ (l : List Nat) (d : DrawState),
      (l.foldl (fun d r => drawRow s.mode.width x0 ((y0 + r) % s.mode.height) (s.readByte (s.i.toNat + r)) d) d).fb.pixel
        qx qy = d.fb.pixel qx qy := by
    intro l
    induction l with
    | nil => intro d; rfl
    | cons r l ih =>
      intro d
      have hlt := Nat.mod_lt (y0 + r) hh
      have hle := s.mode.height_le
      exact (ih _).trans (drawRow_outside s.mode.width_pos s.mode.width_le (by omega) _ d (by omega))
  exact key _ _

end Sys2Proof.Machine
end

