-- ==== Sys2Proof/Laws/Encoding.lean ====
section
/-! SUPPORT. The nibbles and fields of a word written as a pattern of R94 (`a ++ nnn`, `a ++ x ++ kk`,
`a ++ x ++ y ++ b`), and what the tree's lookup answers under each root key (40_dispatch.md R122). -/
namespace Sys2Proof

/-! ### Format NNN -/

theorem nibble0_nnn (a : Nibble) (n : Addr) : nibble0 (a ++ n) = a :=
  BitVec.extractLsb'_append_eq_left (a := a) (b := n)

theorem addr12_nnn (a : Nibble) (n : Addr) : (Fields.ofWord (a ++ n)).addr12 = n :=
  BitVec.extractLsb'_append_eq_right (a := a) (b := n)

/-! ### Format XKK, and XFF with a fixed low byte -/

theorem nibble0_xkk (a x : Nibble) (k : Byte) : nibble0 (a ++ x ++ k) = a :=
  (BitVec.extractLsb'_append_eq_of_le (xhi := a ++ x) (xlo := k) (start := 12) (len := 4) (by decide)).trans
    (BitVec.extractLsb'_append_eq_left (a := a) (b := x))

theorem nibble1_xkk (a x : Nibble) (k : Byte) : nibble1 (a ++ x ++ k) = x :=
  (BitVec.extractLsb'_append_eq_of_le (xhi := a ++ x) (xlo := k) (start := 8) (len := 4) (by decide)).trans
    (BitVec.extractLsb'_append_eq_right (a := a) (b := x))

theorem nibble2_xkk (a x : Nibble) (k : Byte) : nibble2 (a ++ x ++ k) = k.extractLsb' 4 4 :=
  BitVec.extractLsb'_append_eq_of_add_le (xhi := a ++ x) (xlo := k) (by decide)

theorem nibble3_xkk (a x : Nibble) (k : Byte) : nibble3 (a ++ x ++ k) = k.extractLsb' 0 4 :=
  BitVec.extractLsb'_append_eq_of_add_le (xhi := a ++ x) (xlo := k) (by decide)

theorem imm8_xkk (a x : Nibble) (k : Byte) : (Fields.ofWord (a ++ x ++ k)).imm8 = k :=
  BitVec.extractLsb'_append_eq_right (a := a ++ x) (b := k)

/-! ### Formats XYF and XYN -/

theorem nibble0_xyn (a x y b : Nibble) : nibble0 (a ++ x ++ y ++ b) = a :=
  ((BitVec.extractLsb'_append_eq_of_le (xhi := a ++ x ++ y) (xlo := b) (start := 12) (len := 4) (by decide)).trans
    (BitVec.extractLsb'_append_eq_of_le (xhi := a ++ x) (xlo := y) (start := 8) (len := 4) (by decide))).trans
    (BitVec.extractLsb'_append_eq_left (a := a) (b := x))

theorem nibble1_xyn (a x y b : Nibble) : nibble1 (a ++ x ++ y ++ b) = x :=
  ((BitVec.extractLsb'_append_eq_of_le (xhi := a ++ x ++ y) (xlo := b) (start := 8) (len := 4) (by decide)).trans
    (BitVec.extractLsb'_append_eq_of_le (xhi := a ++ x) (xlo := y) (start := 4) (len := 4) (by decide))).trans
    (BitVec.extractLsb'_append_eq_right (a := a) (b := x))

theorem nibble2_xyn (a x y b : Nibble) : nibble2 (a ++ x ++ y ++ b) = y :=
  (BitVec.extractLsb'_append_eq_of_le (xhi := a ++ x ++ y) (xlo := b) (start := 4) (len := 4) (by decide)).trans
    (BitVec.extractLsb'_append_eq_right (a := a ++ x) (b := y))

theorem nibble3_xyn (a x y b : Nibble) : nibble3 (a ++ x ++ y ++ b) = b :=
  BitVec.extractLsb'_append_eq_right (a := a ++ x ++ y) (b := b)

/-! ### Masks: a fixed nibble keeps its value, an operand nibble is cleared (R93) -/

theorem mask_nnn (a : Nibble) (n : Addr) : (a ++ n : Word) &&& 0xF000 = (a ++ 0x000#12 : Word) := by
  have h : (0xF000 : Word) = (0xF#4 ++ 0x000#12 : Word) := by decide
  rw [h]
  have ha : a &&& 0xF#4 = a := by simpa using BitVec.and_allOnes (x := a)
  have hn : n &&& 0x000#12 = 0x000#12 := by simp
  exact BitVec.and_append.trans (by rw [ha, hn])

theorem mask_xkk (a x : Nibble) (k : Byte) :
    (a ++ x ++ k : Word) &&& 0xF000 = (a ++ 0x0#4 ++ 0x00#8 : Word) := by
  have h : (0xF000 : Word) = (0xF#4 ++ 0x0#4 ++ 0x00#8 : Word) := by decide
  rw [h]
  have ha : a &&& 0xF#4 = a := by simpa using BitVec.and_allOnes (x := a)
  have hx : x &&& 0x0#4 = 0x0#4 := by simp
  have hk : k &&& 0x00#8 = 0x00#8 := by simp
  exact BitVec.and_append.trans (by rw [BitVec.and_append, ha, hx, hk])

theorem mask_xff (a x : Nibble) (k : Byte) :
    (a ++ x ++ k : Word) &&& 0xF0FF = (a ++ 0x0#4 ++ k : Word) := by
  have h : (0xF0FF : Word) = (0xF#4 ++ 0x0#4 ++ 0xFF#8 : Word) := by decide
  rw [h]
  have ha : a &&& 0xF#4 = a := by simpa using BitVec.and_allOnes (x := a)
  have hx : x &&& 0x0#4 = 0x0#4 := by simp
  have hk : k &&& 0xFF#8 = k := by simpa using BitVec.and_allOnes (x := k)
  exact BitVec.and_append.trans (by rw [BitVec.and_append, ha, hx, hk])

theorem mask_xyf (a x y b : Nibble) :
    (a ++ x ++ y ++ b : Word) &&& 0xF00F = (a ++ 0x0#4 ++ 0x0#4 ++ b : Word) := by
  have h : (0xF00F : Word) = (0xF#4 ++ 0x0#4 ++ 0x0#4 ++ 0xF#4 : Word) := by decide
  rw [h]
  have ha : a &&& 0xF#4 = a := by simpa using BitVec.and_allOnes (x := a)
  have hb : b &&& 0xF#4 = b := by simpa using BitVec.and_allOnes (x := b)
  have hx : x &&& 0x0#4 = 0x0#4 := by simp
  have hy : y &&& 0x0#4 = 0x0#4 := by simp
  exact BitVec.and_append.trans (by rw [BitVec.and_append, BitVec.and_append, ha, hb, hx, hy])

theorem mask_xyn (a x y b : Nibble) :
    (a ++ x ++ y ++ b : Word) &&& 0xF000 = (a ++ 0x0#4 ++ 0x0#4 ++ 0x0#4 : Word) := by
  have h : (0xF000 : Word) = (0xF#4 ++ 0x0#4 ++ 0x0#4 ++ 0x0#4 : Word) := by decide
  rw [h]
  have ha : a &&& 0xF#4 = a := by simpa using BitVec.and_allOnes (x := a)
  have hb : b &&& 0x0#4 = 0x0#4 := by simp
  have hx : x &&& 0x0#4 = 0x0#4 := by simp
  have hy : y &&& 0x0#4 = 0x0#4 := by simp
  exact BitVec.and_append.trans (by rw [BitVec.and_append, BitVec.and_append, ha, hb, hx, hy])

/-! ### A word as its four nibbles -/

/-- A word is its nibbles put together, the first the most significant (R91). -/
theorem word_eq_nibbles (w : Word) : w = nibble0 w ++ nibble1 w ++ nibble2 w ++ nibble3 w := by
  have h1 : (nibble0 w ++ nibble1 w) = w.extractLsb' 8 8 := BitVec.extractLsb'_append_extractLsb'_eq_extractLsb' rfl
  have h2 : (nibble0 w ++ nibble1 w ++ nibble2 w) = w.extractLsb' 4 12 := by
    rw [h1]; exact BitVec.extractLsb'_append_extractLsb'_eq_extractLsb' rfl
  have h3 : (w.extractLsb' 4 12 ++ w.extractLsb' 0 4 : Word) = w.extractLsb' 0 16 :=
    BitVec.extractLsb'_append_extractLsb'_eq_extractLsb' rfl
  rw [h2]
  exact (h3.trans (by simp)).symm

/-- A word matches a pattern exactly when each of its nibbles matches the pattern's key there (R93). -/
theorem matches_iff (p : Pattern) (w : Word) :
    p.matches w = true ↔
      nibble0 w &&& p.k0.mask = p.k0.fixed ∧ nibble1 w &&& p.k1.mask = p.k1.fixed ∧
      nibble2 w &&& p.k2.mask = p.k2.fixed ∧ nibble3 w &&& p.k3.mask = p.k3.fixed := by
  have key : w &&& p.mask = (nibble0 w &&& p.k0.mask) ++ (nibble1 w &&& p.k1.mask) ++
      (nibble2 w &&& p.k2.mask) ++ (nibble3 w &&& p.k3.mask) := by
    conv => lhs; rw [word_eq_nibbles w]
    unfold Pattern.mask
    exact BitVec.and_append.trans (by rw [BitVec.and_append, BitVec.and_append])
  simp only [Pattern.matches, beq_iff_eq, key, Pattern.matchBits]
  constructor
  · intro h
    refine ⟨?_, ?_, ?_, ?_⟩
    · simpa [nibble0_xyn] using congrArg nibble0 h
    · simpa [nibble1_xyn] using congrArg nibble1 h
    · simpa [nibble2_xyn] using congrArg nibble2 h
    · simpa [nibble3_xyn] using congrArg nibble3 h
  · rintro ⟨a, b, c, d⟩; rw [a, b, c, d]

/-- A nibble matches an exact key when it is that value (R93). -/
theorem nibble_matches_exact (v n : Nibble) : n &&& (Key.exact v).mask = (Key.exact v).fixed ↔ n = v := by
  revert v n; decide

/-- Every nibble matches the wildcard (R93). -/
theorem nibble_matches_any (n : Nibble) : n &&& Key.any.mask = Key.any.fixed ↔ True := by
  revert n; decide

/-! ### The lookup under each root key (R122) -/

/-- A child under the wildcard alone is found whatever the nibble (R123). -/
theorem child_wild {α : Type} (c : Option α) (k : Nibble) : Node.child ⟨[], c⟩ k = c := rfl

/-- A child among exact keys (R123). -/
theorem child_exact {α : Type} (v : Nibble) (c : α) (rest : List (Nibble × α)) (d : Option α) (k : Nibble) :
    Node.child ⟨(v, c) :: rest, d⟩ k = if k = v then some c else Node.child ⟨rest, d⟩ k := by
  unfold Node.child
  by_cases h : k = v
  · subst h; simp
  · have hb : (k == v) = false := by simpa using h
    simp [List.lookup_cons, hb, h]

/-- Root keys 1, 2, 3, 4, 6, 7, A, B, C, D lead to one handler whatever the other nibbles are (R122). -/
theorem lookup_wild {w : Word} {a : Nibble} {o : Opcode} (h : nibble0 w = a)
    (ht : dispatchTree.child a = some ⟨[], some ⟨[], some ⟨[], some o⟩⟩⟩) : lookup w = some o := by
  simp only [lookup, h, ht, child_wild]

/-- Root keys 5, 8 and 9 leave the choice to the last nibble (R122). -/
theorem lookup_last {w : Word} {a : Nibble} {n : Node Opcode} (h : nibble0 w = a)
    (ht : dispatchTree.child a = some ⟨[], some ⟨[], some n⟩⟩) : lookup w = n.child (nibble3 w) := by
  simp only [lookup, h, ht, child_wild]

/-- Root keys E and F leave the choice to the last two nibbles (R122). -/
theorem lookup_lastTwo {w : Word} {a : Nibble} {n : Node (Node Opcode)} (h : nibble0 w = a)
    (ht : dispatchTree.child a = some ⟨[], some n⟩) :
    lookup w = (n.child (nibble2 w)).bind fun c => c.child (nibble3 w) := by
  simp only [lookup, h, ht, child_wild]
  cases n.child (nibble2 w) <;> rfl

theorem child_1 : dispatchTree.child 0x1 = some ⟨[], some ⟨[], some ⟨[], some .jp⟩⟩⟩ := by decide
theorem child_2 : dispatchTree.child 0x2 = some ⟨[], some ⟨[], some ⟨[], some .call⟩⟩⟩ := by decide
theorem child_3 : dispatchTree.child 0x3 = some ⟨[], some ⟨[], some ⟨[], some .seImm⟩⟩⟩ := by decide
theorem child_4 : dispatchTree.child 0x4 = some ⟨[], some ⟨[], some ⟨[], some .sneImm⟩⟩⟩ := by decide
theorem child_6 : dispatchTree.child 0x6 = some ⟨[], some ⟨[], some ⟨[], some .ldImm⟩⟩⟩ := by decide
theorem child_7 : dispatchTree.child 0x7 = some ⟨[], some ⟨[], some ⟨[], some .addImm⟩⟩⟩ := by decide
theorem child_A : dispatchTree.child 0xA = some ⟨[], some ⟨[], some ⟨[], some .ldI⟩⟩⟩ := by decide
theorem child_B : dispatchTree.child 0xB = some ⟨[], some ⟨[], some ⟨[], some .jpV0⟩⟩⟩ := by decide
theorem child_C : dispatchTree.child 0xC = some ⟨[], some ⟨[], some ⟨[], some .rnd⟩⟩⟩ := by decide
theorem child_D : dispatchTree.child 0xD = some ⟨[], some ⟨[], some ⟨[], some .drw⟩⟩⟩ := by decide
theorem child_5 : dispatchTree.child 0x5 = some ⟨[], some ⟨[], some ⟨[(0x0, .seReg)], none⟩⟩⟩ := by decide
theorem child_9 : dispatchTree.child 0x9 = some ⟨[], some ⟨[], some ⟨[(0x0, .sneReg)], none⟩⟩⟩ := by decide
theorem child_8 : dispatchTree.child 0x8 = some ⟨[], some ⟨[], some ⟨
    [(0x0, .ldReg), (0x1, .orReg), (0x2, .andReg), (0x3, .xorReg), (0x4, .addReg), (0x5, .sub), (0x6, .shr),
     (0x7, .subn), (0xE, .shl)], none⟩⟩⟩ := by decide
theorem child_0 : dispatchTree.child 0x0 = some ⟨[(0x0, ⟨
    [(0xE, ⟨[(0x0, .cls), (0xE, .ret)], none⟩), (0xF, ⟨[(0xE, .low), (0xF, .high)], none⟩)], none⟩)], none⟩ := by
  decide
theorem child_E : dispatchTree.child 0xE = some ⟨[], some ⟨
    [(0x9, ⟨[(0xE, .skp)], none⟩), (0xA, ⟨[(0x1, .sknp)], none⟩)], none⟩⟩ := by decide
theorem child_F : dispatchTree.child 0xF = some ⟨[], some ⟨
    [(0x0, ⟨[(0x7, .ldVxDt), (0xA, .ldVxK)], none⟩), (0x1, ⟨[(0x5, .ldDtVx), (0x8, .ldStVx), (0xE, .addI)], none⟩),
     (0x2, ⟨[(0x9, .ldF)], none⟩), (0x3, ⟨[(0x3, .ldB)], none⟩), (0x5, ⟨[(0x5, .storeRegs)], none⟩),
     (0x6, ⟨[(0x5, .loadRegs)], none⟩)], none⟩⟩ := by decide

end Sys2Proof
end

