-- ==== Sys2Proof/Laws/Memory.lean ====
section
/-! SUPPORT. The laws of memory: every memory operation keeps the canonical form, a read after a write gives the
byte written there and the old byte everywhere else (20_memory.md R67), and what is canonical is determined by
its reads. -/
namespace Sys2Proof.Machine

theorem cellsWf_cons {low a : Nat} {v : Byte} {rest : Memory} :
    cellsWf low ((a, v) :: rest) = true ↔
      low ≤ a ∧ a < memSize ∧ v ≠ 0 ∧ cellsWf (a + 1) rest = true := by
  simp [cellsWf, and_assoc]

/-- A canonical form from a higher bound is one from a lower bound. -/
theorem cellsWf_mono {low low' : Nat} {m : Memory} (h : low' ≤ low) (hm : cellsWf low m = true) :
    cellsWf low' m = true := by
  cases m with
  | nil => rfl
  | cons c rest =>
    obtain ⟨a, v⟩ := c
    rw [cellsWf_cons] at hm ⊢
    exact ⟨by omega, hm.2⟩

/-- Below its bound a canonical memory lists nothing. -/
theorem read_below {low a : Nat} {m : Memory} (hm : cellsWf low m = true) (h : a < low) :
    Memory.read m a = 0 := by
  induction m generalizing low with
  | nil => rfl
  | cons c rest ih =>
    obtain ⟨b, v⟩ := c
    rw [cellsWf_cons] at hm
    have hb : b ≠ a := by omega
    simp only [Memory.read, hb, if_false]
    exact ih hm.2.2.2 (by omega)

/-- Putting one cell in front keeps the canonical form. -/
theorem cell_append_wf {low a : Nat} {v : Byte} {m : Memory} (hl : low ≤ a) (ha : a < memSize)
    (hm : cellsWf (a + 1) m = true) : cellsWf low (Memory.cell a v ++ m) = true := by
  unfold Memory.cell
  split
  · exact cellsWf_mono (by omega) hm
  · rename_i hv
    exact cellsWf_cons.2 ⟨hl, ha, hv, hm⟩

/-- Reading through one cell put in front of a memory that lists nothing up to it. -/
theorem read_cell_append {a b : Nat} {v : Byte} {m : Memory} (hm : cellsWf (a + 1) m = true) :
    Memory.read (Memory.cell a v ++ m) b = if b = a then v else Memory.read m b := by
  unfold Memory.cell
  split
  · rename_i hv
    split
    · rename_i h; subst h; rw [hv]; exact read_below hm (by omega)
    · rfl
  · simp only [List.cons_append, List.nil_append, Memory.read, eq_comm]

/-- A write keeps the canonical form. -/
theorem write_wf {low a : Nat} {v : Byte} {m : Memory} (hl : low ≤ a) (ha : a < memSize)
    (hm : cellsWf low m = true) : cellsWf low (Memory.write m a v) = true := by
  induction m generalizing low with
  | nil => simpa [Memory.write] using cell_append_wf (v := v) (m := []) hl ha rfl
  | cons c rest ih =>
    obtain ⟨b, u⟩ := c
    have hm' := cellsWf_cons.1 hm
    simp only [Memory.write]
    split
    · exact cellsWf_cons.2 ⟨hm'.1, hm'.2.1, hm'.2.2.1, ih (by omega) hm'.2.2.2⟩
    · split
      · exact cell_append_wf hl ha (cellsWf_mono (by omega) hm'.2.2.2)
      · exact cell_append_wf hl ha (cellsWf_cons.2 ⟨by omega, hm'.2⟩)

/-- A read after a write: the byte written at its address, the old byte everywhere else (R67). -/
theorem read_write {low a : Nat} {v : Byte} {m : Memory} (hm : cellsWf low m = true) (b : Nat) :
    Memory.read (Memory.write m a v) b = if b = a then v else Memory.read m b := by
  induction m generalizing low with
  | nil => simpa [Memory.write] using read_cell_append (v := v) (b := b) (m := []) (a := a) rfl
  | cons c rest ih =>
    obtain ⟨c, u⟩ := c
    have hm' := cellsWf_cons.1 hm
    simp only [Memory.write]
    split
    · simp only [Memory.read, ih hm'.2.2.2]
      split <;> split <;> first | rfl | omega
    · split
      · rw [read_cell_append (cellsWf_mono (by omega) hm'.2.2.2)]
        simp only [Memory.read]
        split
        · rfl
        · rw [if_neg (by omega)]
      · rw [read_cell_append (cellsWf_cons.2 ⟨by omega, hm'.2⟩)]

/-- A block write inside the address space keeps the canonical form. -/
theorem writeBytes_wf {a : Nat} {bytes : List Byte} {m : Memory} (h : a + bytes.length ≤ memSize)
    (hm : m.wf = true) : (m.writeBytes a bytes).wf = true := by
  induction bytes generalizing a with
  | nil => exact hm
  | cons v rest ih =>
    simp only [List.length_cons] at h
    exact write_wf (by omega) (by omega) (ih (by omega))

/-- A read after a block write: the string's byte inside it, the old byte everywhere else. -/
theorem read_writeBytes {a : Nat} {bytes : List Byte} {m : Memory} (h : a + bytes.length ≤ memSize)
    (hm : m.wf = true) (b : Nat) :
    (m.writeBytes a bytes).read b =
      if a ≤ b ∧ b < a + bytes.length then bytes.getD (b - a) 0 else m.read b := by
  induction bytes generalizing a with
  | nil => simp only [Memory.writeBytes, List.length_nil]; rw [if_neg (by omega)]
  | cons v rest ih =>
    simp only [List.length_cons] at h ⊢
    simp only [Memory.writeBytes]
    rw [read_write (low := 0) (writeBytes_wf (by omega) hm) b, ih (by omega)]
    by_cases hb : b = a
    · subst hb; rw [if_pos rfl, if_pos (by omega)]; simp
    · rw [if_neg hb]
      by_cases hin : a + 1 ≤ b ∧ b < a + 1 + rest.length
      · rw [if_pos hin, if_pos (by omega)]
        obtain ⟨k, rfl⟩ : ∃ k, b = a + 1 + k := ⟨b - (a + 1), by omega⟩
        have h1 : a + 1 + k - (a + 1) = k := by omega
        have h2 : a + 1 + k - a = k + 1 := by omega
        rw [h1, h2]; simp
      · rw [if_neg hin, if_neg (by omega)]

/-- The empty memory is canonical and reads as 0x00 everywhere (R39). -/
theorem empty_wf : Memory.wf [] = true := rfl

@[simp] theorem read_empty (a : Nat) : Memory.read [] a = 0 := rfl

/-- The bytes of a state after a block write inside the address space. -/
theorem State.readByte_writeBytes {s : State} {a : Nat} {bytes : List Byte}
    (h : a + bytes.length ≤ memSize) (hm : s.mem.wf = true) (b : Nat) :
    (s.writeBytes a bytes).readByte b =
      if a ≤ b ∧ b < a + bytes.length then bytes.getD (b - a) 0 else s.readByte b :=
  read_writeBytes h hm b

end Sys2Proof.Machine
end

