-- ==== Sys2Proof/Laws/HostEvents.lean ====
section
/-! SUPPORT. What the host's loads can do, said once: the whole string where it fits, nothing where it does not. -/
namespace Sys2Proof.Machine

/-- A string that fits is written whole and the result is success (R291). -/
theorem hostLoad_fits (s : State) {bytes : List Byte} {addr : Nat} (h : bytes.length + addr ≤ memSize) :
    s.hostLoad bytes addr = (s.writeBytes addr bytes, true) := by
  rw [State.hostLoad, if_pos (by simpa [loadFits] using h)]

/-- A string that does not fit changes nothing and the result is failure (R291). -/
theorem hostLoad_rejected (s : State) {bytes : List Byte} {addr : Nat} (h : memSize < bytes.length + addr) :
    s.hostLoad bytes addr = (s, false) := by
  rw [State.hostLoad, if_neg (by simpa [loadFits] using h)]

/-- A load changes memory alone, whether it fits or not (R291). -/
theorem hostLoad_frame (s : State) (bytes : List Byte) (addr : Nat) :
    (s.hostLoad bytes addr).1 = { s with mem := (s.hostLoad bytes addr).1.mem } := by
  unfold State.hostLoad
  split <;> rfl

/-- Memory after a RESET lists nothing (R39, R290). -/
@[simp] theorem hostReset_mem (s : State) : s.hostReset.mem = [] := rfl

end Sys2Proof.Machine
end

