-- ==== Sys2Proof/Laws/Operands.lean ====
section
/-! SUPPORT. What the operand forms give: the range check, the zero extensions, the registers of a block transfer,
the two branches of RET and CALL. -/
namespace Sys2Proof.Machine

/-- The range check passes when nothing is accessed or the last address is at most 0xFFF (R65). -/
theorem rangeOk_iff (b : Word) (n : Nat) : rangeOk b n = true ↔ n = 0 ∨ b.toNat + n - 1 ≤ 0xFFF := by
  simp [rangeOk, memSize]; omega

/-- The range check fails exactly when the last byte lies beyond 0xFFF (R65). -/
theorem rangeOk_false_iff (b : Word) (n : Nat) : rangeOk b n = false ↔ 0 < n ∧ 0xFFF < b.toNat + n - 1 := by
  rw [← Bool.not_eq_true, rangeOk_iff]; omega

/-- Zero extension keeps the value (R8). -/
@[simp] theorem addr16_toNat (a : Addr) : (addr16 a).toNat = a.toNat :=
  (BitVec.toNat_setWidth 16 a).trans (Nat.mod_eq_of_lt (by omega))

/-- Zero extension keeps the value (R8). -/
@[simp] theorem byte16_toNat (b : Byte) : (byte16 b).toNat = b.toNat :=
  (BitVec.toNat_setWidth 16 b).trans (Nat.mod_eq_of_lt (by omega))

/-- The low nibble is the value modulo 16 (R236, R192). -/
@[simp] theorem lowNibble_toNat (b : Byte) : (lowNibble b).toNat = b.toNat % 16 := by
  simp [lowNibble, BitVec.extractLsb'_toNat]

/-- The jump target of `JP V0, addr` never wraps (R147). -/
theorem jumpTarget_toNat (s : State) (nnn : Addr) :
    (jumpTarget s nnn).toNat = nnn.toNat + (s.getV 0).toNat := by
  rw [jumpTarget, BitVec.toNat_add, addr16_toNat, byte16_toNat]
  exact Nat.mod_eq_of_lt (by omega)

/-- The glyph address never wraps (R192). -/
theorem glyphAddr_toNat (c : Config) (b : Byte) :
    (glyphAddr c b).toNat = c.fontBase.toNat + 5 * (b.toNat % 16) := by
  have h : ((lowNibble b).setWidth 16).toNat = b.toNat % 16 := by
    rw [BitVec.toNat_setWidth, lowNibble_toNat]; omega
  have h5 : (5 : Word).toNat = 5 := rfl
  rw [glyphAddr, BitVec.toNat_add, BitVec.toNat_mul, addr16_toNat, h, h5]
  omega

/-- The number of bytes a block transfer moves (R65). -/
@[simp] theorem blockRegs_length (s : State) (x : RegIndex) : (blockRegs s x).length = x.toNat + 1 := by
  simp [blockRegs, blockCount]; omega

/-- The k-th byte a block store moves is Vk (R194). -/
theorem blockRegs_getD (s : State) (x k : RegIndex) (h : k.toNat ≤ x.toNat) :
    (blockRegs s x).getD k.toNat 0 = s.getV k := by
  have hk : k.toNat < 16 := k.isLt
  rw [List.getD_eq_getElem?_getD, blockRegs, List.getElem?_take, if_pos (by simp [blockCount]; omega)]
  simp [State.getV, hk]

/-- Every entry of the register file after a block load (R195). -/
theorem loadBlock_getElem (s : State) (x : RegIndex) (k : Nat) (hk : k < 16) :
    (loadBlock s x)[k] = if k ≤ x.toNat then s.readByte (s.i.toNat + k) else s.v[k] := by
  have key : ∀ n, ((List.range n).foldl
      (fun v k => v.setIfInBounds k (s.readByte (s.i.toNat + k))) s.v)[k] =
        if k < n then s.readByte (s.i.toNat + k) else s.v[k] := by
    intro n
    induction n with
    | zero => simp
    | succ n ih =>
      rw [List.range_succ, List.foldl_append]
      simp only [List.foldl_cons, List.foldl_nil, Vector.getElem_setIfInBounds, ih]
      by_cases h : n = k
      · subst h; simp
      · simp only [h, if_false]
        by_cases h2 : k < n
        · rw [if_pos h2, if_pos (by omega)]
        · rw [if_neg h2, if_neg (by omega)]
  rw [loadBlock, key, blockCount]
  by_cases h : k ≤ x.toNat
  · rw [if_pos h, if_pos (by omega)]
  · rw [if_neg h, if_neg (by omega)]

/-- Every register after a block load (R195). -/
theorem loadBlock_getV (s : State) (x j : RegIndex) :
    ({ s with v := loadBlock s x } : State).getV j =
      if j.toNat ≤ x.toNat then s.readByte (s.i.toNat + j.toNat) else s.getV j :=
  loadBlock_getElem s x j.toNat j.isLt

/-- `RET` in its two branches (R140, R254). -/
theorem exec_ret_cases (s : State) :
    (s.sp.val = 0 ∧ exec .ret s = .next (s.raise .stackUnderflow s.pc)) ∨
    (∃ h : 0 < s.sp.val, exec .ret s =
      .next { s with sp := ⟨s.sp.val - 1, by omega⟩, pc := s.stack[s.sp.val - 1]'(by omega) }) := by
  by_cases h : 0 < s.sp.val
  · exact .inr ⟨h, by simp only [exec, execRet, pop_eq h]; rfl⟩
  · exact .inl ⟨by omega, by simp only [exec, execRet, pop_empty (s := s) (by omega)]⟩

/-- `CALL addr` in its two branches (R142, R253). -/
theorem exec_call_cases (nnn : Addr) (s : State) :
    (s.sp.val = 16 ∧ exec (.call nnn) s = .next (s.raise .stackOverflow s.pc)) ∨
    (∃ h : s.sp.val < 16, exec (.call nnn) s =
      .next { s with stack := s.stack.set s.sp.val (s.pc + 2) h, sp := ⟨s.sp.val + 1, by omega⟩,
                     pc := addr16 nnn }) := by
  by_cases h : s.sp.val < 16
  · exact .inr ⟨h, by simp only [exec, execCall, push_eq h]; rfl⟩
  · exact .inl ⟨by omega, by simp only [exec, execCall, push_full (s := s) (a := s.pc + 2) (by omega)]⟩

end Sys2Proof.Machine
end

