-- ==== Sys2Proof/Laws/PerInstr.lean ====
section
/-! SUPPORT. A family of facts made per instruction: the word the encoder writes for an instruction matches the
pattern its handler is registered under, "`w and mask = match`" (30_encoding.md R93, R94). -/
namespace Sys2Proof.Laws.EncodeMatches

/-- The encoded word of `i` matches the pattern of `i`'s row of R94. -/
def Statement (i : Instr) : Prop := encode i &&& i.opcode.pattern.mask = i.opcode.pattern.matchBits

/-- From the value of the mask and of the masked word. -/
theorem of_mask {i : Instr} {o : Opcode} {m r : Word} (ho : i.opcode = o) (hm : o.pattern.mask = m)
    (h : encode i &&& m = r) (hr : r = o.pattern.matchBits) : Statement i := by
  unfold Statement
  rw [ho, hm, h, hr]

theorem cls : Statement .cls := show encode .cls &&& _ = _ by decide
theorem ret : Statement .ret := show encode .ret &&& _ = _ by decide
theorem low : Statement .low := show encode .low &&& _ = _ by decide
theorem high : Statement .high := show encode .high &&& _ = _ by decide
theorem jp (nnn : Addr) : Statement (.jp nnn) :=
  of_mask (o := .jp) rfl (by decide) (mask_nnn 0x1 nnn) (by decide)
theorem call (nnn : Addr) : Statement (.call nnn) :=
  of_mask (o := .call) rfl (by decide) (mask_nnn 0x2 nnn) (by decide)
theorem seImm (x : RegIndex) (kk : Byte) : Statement (.seImm x kk) :=
  of_mask (o := .seImm) rfl (by decide) (mask_xkk 0x3 x kk) (by decide)
theorem sneImm (x : RegIndex) (kk : Byte) : Statement (.sneImm x kk) :=
  of_mask (o := .sneImm) rfl (by decide) (mask_xkk 0x4 x kk) (by decide)
theorem seReg (x y : RegIndex) : Statement (.seReg x y) :=
  of_mask (o := .seReg) rfl (by decide) (mask_xyf 0x5 x y 0x0) (by decide)
theorem ldImm (x : RegIndex) (kk : Byte) : Statement (.ldImm x kk) :=
  of_mask (o := .ldImm) rfl (by decide) (mask_xkk 0x6 x kk) (by decide)
theorem addImm (x : RegIndex) (kk : Byte) : Statement (.addImm x kk) :=
  of_mask (o := .addImm) rfl (by decide) (mask_xkk 0x7 x kk) (by decide)
theorem ldReg (x y : RegIndex) : Statement (.ldReg x y) :=
  of_mask (o := .ldReg) rfl (by decide) (mask_xyf 0x8 x y 0x0) (by decide)
theorem orReg (x y : RegIndex) : Statement (.orReg x y) :=
  of_mask (o := .orReg) rfl (by decide) (mask_xyf 0x8 x y 0x1) (by decide)
theorem andReg (x y : RegIndex) : Statement (.andReg x y) :=
  of_mask (o := .andReg) rfl (by decide) (mask_xyf 0x8 x y 0x2) (by decide)
theorem xorReg (x y : RegIndex) : Statement (.xorReg x y) :=
  of_mask (o := .xorReg) rfl (by decide) (mask_xyf 0x8 x y 0x3) (by decide)
theorem addReg (x y : RegIndex) : Statement (.addReg x y) :=
  of_mask (o := .addReg) rfl (by decide) (mask_xyf 0x8 x y 0x4) (by decide)
theorem sub (x y : RegIndex) : Statement (.sub x y) :=
  of_mask (o := .sub) rfl (by decide) (mask_xyf 0x8 x y 0x5) (by decide)
theorem shr (x y : RegIndex) : Statement (.shr x y) :=
  of_mask (o := .shr) rfl (by decide) (mask_xyf 0x8 x y 0x6) (by decide)
theorem subn (x y : RegIndex) : Statement (.subn x y) :=
  of_mask (o := .subn) rfl (by decide) (mask_xyf 0x8 x y 0x7) (by decide)
theorem shl (x y : RegIndex) : Statement (.shl x y) :=
  of_mask (o := .shl) rfl (by decide) (mask_xyf 0x8 x y 0xE) (by decide)
theorem sneReg (x y : RegIndex) : Statement (.sneReg x y) :=
  of_mask (o := .sneReg) rfl (by decide) (mask_xyf 0x9 x y 0x0) (by decide)
theorem ldI (nnn : Addr) : Statement (.ldI nnn) :=
  of_mask (o := .ldI) rfl (by decide) (mask_nnn 0xA nnn) (by decide)
theorem jpV0 (nnn : Addr) : Statement (.jpV0 nnn) :=
  of_mask (o := .jpV0) rfl (by decide) (mask_nnn 0xB nnn) (by decide)
theorem rnd (x : RegIndex) (kk : Byte) : Statement (.rnd x kk) :=
  of_mask (o := .rnd) rfl (by decide) (mask_xkk 0xC x kk) (by decide)
theorem drw (x y : RegIndex) (n : Nibble) : Statement (.drw x y n) :=
  of_mask (o := .drw) rfl (by decide) (mask_xyn 0xD x y n) (by decide)
theorem skp (x : RegIndex) : Statement (.skp x) :=
  of_mask (o := .skp) rfl (by decide) (mask_xff 0xE x 0x9E) (by decide)
theorem sknp (x : RegIndex) : Statement (.sknp x) :=
  of_mask (o := .sknp) rfl (by decide) (mask_xff 0xE x 0xA1) (by decide)
theorem ldVxDt (x : RegIndex) : Statement (.ldVxDt x) :=
  of_mask (o := .ldVxDt) rfl (by decide) (mask_xff 0xF x 0x07) (by decide)
theorem ldVxK (x : RegIndex) : Statement (.ldVxK x) :=
  of_mask (o := .ldVxK) rfl (by decide) (mask_xff 0xF x 0x0A) (by decide)
theorem ldDtVx (x : RegIndex) : Statement (.ldDtVx x) :=
  of_mask (o := .ldDtVx) rfl (by decide) (mask_xff 0xF x 0x15) (by decide)
theorem ldStVx (x : RegIndex) : Statement (.ldStVx x) :=
  of_mask (o := .ldStVx) rfl (by decide) (mask_xff 0xF x 0x18) (by decide)
theorem addI (x : RegIndex) : Statement (.addI x) :=
  of_mask (o := .addI) rfl (by decide) (mask_xff 0xF x 0x1E) (by decide)
theorem ldF (x : RegIndex) : Statement (.ldF x) :=
  of_mask (o := .ldF) rfl (by decide) (mask_xff 0xF x 0x29) (by decide)
theorem ldB (x : RegIndex) : Statement (.ldB x) :=
  of_mask (o := .ldB) rfl (by decide) (mask_xff 0xF x 0x33) (by decide)
theorem storeRegs (x : RegIndex) : Statement (.storeRegs x) :=
  of_mask (o := .storeRegs) rfl (by decide) (mask_xff 0xF x 0x55) (by decide)
theorem loadRegs (x : RegIndex) : Statement (.loadRegs x) :=
  of_mask (o := .loadRegs) rfl (by decide) (mask_xff 0xF x 0x65) (by decide)

end Sys2Proof.Laws.EncodeMatches
end

