-- ==== Sys2Proof/Machine/Glyphs.lean ====
section
/-! DEFINITION. The hexadecimal glyph table that `LD F, Vx` presumes (43_index_memory.md R196). It is not part of the
core: RESET does not place it, no meaning reads it, and a model must not assume it is present. It is here as the byte
string a host may give to LOAD at `FONT_BASE` (70_reset_and_hazards.md R294). -/
namespace Sys2Proof.Machine

/-- The five rows of a digit's glyph, 4 pixels in the high nibble of each (R196). -/
def glyphRows (d : Nibble) : List Byte :=
  match d.toNat with
  | 0x0 => [0xF0, 0x90, 0x90, 0x90, 0xF0]
  | 0x1 => [0x20, 0x60, 0x20, 0x20, 0x70]
  | 0x2 => [0xF0, 0x10, 0xF0, 0x80, 0xF0]
  | 0x3 => [0xF0, 0x10, 0xF0, 0x10, 0xF0]
  | 0x4 => [0x90, 0x90, 0xF0, 0x10, 0x10]
  | 0x5 => [0xF0, 0x80, 0xF0, 0x10, 0xF0]
  | 0x6 => [0xF0, 0x80, 0xF0, 0x90, 0xF0]
  | 0x7 => [0xF0, 0x10, 0x20, 0x40, 0x40]
  | 0x8 => [0xF0, 0x90, 0xF0, 0x90, 0xF0]
  | 0x9 => [0xF0, 0x90, 0xF0, 0x10, 0xF0]
  | 0xA => [0xF0, 0x90, 0xF0, 0x90, 0x90]
  | 0xB => [0xE0, 0x90, 0xE0, 0x90, 0xE0]
  | 0xC => [0xF0, 0x80, 0x80, 0x80, 0xF0]
  | 0xD => [0xE0, 0x90, 0x90, 0x90, 0xE0]
  | 0xE => [0xF0, 0x80, 0xF0, 0x80, 0xF0]
  | _ => [0xF0, 0x80, 0xF0, 0x80, 0x80]

/-- The 80 bytes, glyph 0 first: glyph d occupies `FONT_BASE + 5*d` to `FONT_BASE + 5*d + 4` (R196). -/
def glyphTable : List Byte := (List.range 16).flatMap fun d => glyphRows (BitVec.ofNat 4 d)

/-- The host's LOAD of the glyphs at `FONT_BASE` (R294). -/
def glyphLoad (c : Config) : HostEvent := .load glyphTable c.fontBase.toNat

end Sys2Proof.Machine
end

