-- ==== Sys2Proof/Tests/Slice0.lean ====
section
/-! SUPPORT. The model's own tests: the refusals of WellFormed, the decoding of words written out from
30_encoding.md R93 and R94, one-step vectors of 95_test_vectors.md (their identifiers stand in the names), and for
every statement with hypotheses a witness that meets them. The expected values are the spec's. -/
namespace Sys2Proof.Tests
open Sys2Proof Sys2Proof.Machine

/-! ### Helpers -/

/-- The start of a vector: the state after RESET, running, with a word placed at pc (95_test_vectors.md). -/
def ready (pc w : Word) : State :=
  { State.reset with runState := .running, pc := pc, mem := Memory.writeBytes [] pc.toNat (wordBytes w) }

/-- The start state with pc = 0x200. -/
def start (w : Word) : State := ready 0x200 w

/-- The start state with bytes placed at an address too. -/
def startBytes (w : Word) (a : Nat) (bytes : List Byte) : State := (start w).writeBytes a bytes

/-- The state with lit pixels. -/
def lit (s : State) (l : List (Nat × Nat)) : State :=
  { s with fb := l.foldl (fun fb p => fb.flip p.1 p.2) s.fb }

/-- The answer is a next state that meets a test. -/
def gives (r : Result) (p : State → Bool) : Bool :=
  match r with
  | .next t => p t
  | _ => false

/-- The next state of an answer, and the state after reset where there is none. -/
def after (r : Result) : State :=
  match r with
  | .next t => t
  | _ => State.reset

/-- How many pixels are 1. -/
def litCount (s : State) : Nat := s.fb.toList.foldl (fun n row => n + ((List.range 128).filter row.getLsbD).length) 0

/-! ### WellFormed: each check refuses an ill-formed term and admits its neighbour -/

theorem test_wf_config : Config.wf ⟨0xFB1⟩ = false ∧ Config.wf ⟨0xFB0⟩ = true ∧ Config.default.wf = true := by decide
theorem test_wf_keyIndex : keyIndexOk 16 = false ∧ keyIndexOk 15 = true := by decide
theorem test_wf_disasmAddr : disasmAddrOk 0x201 = false ∧ disasmAddrOk 0x1000 = false ∧ disasmAddrOk 0xFFE = true := by
  decide
theorem test_wf_pixel : pixelOk 128 0 = false ∧ pixelOk 0 64 = false ∧ pixelOk 127 63 = true := by decide
theorem test_wf_load : loadFits [0x07] 4096 = false ∧ loadFits [0x07] 4095 = true ∧ loadFits [] 4096 = true := by decide
theorem test_wf_memory : Memory.wf [(2, 1), (1, 1)] = false ∧ Memory.wf [(1, 1), (1, 2)] = false ∧
    Memory.wf [(1, 0)] = false ∧ Memory.wf [(4096, 1)] = false ∧ Memory.wf [(0, 1), (4095, 2)] = true := by decide
theorem test_wf_instr : (Instr.drw 0xF 0xF 0xF).wf = true := by decide

/-! ### Decoding, from words written bit by bit (R93, R94) and the words of T2 and T3 -/

theorem test_decode_bits_control :
    decodeWord 0b0001001100000000 = some (.jp 0x300) ∧ decodeWord 0b0010111111111111 = some (.call 0xFFF) ∧
    decodeWord 0b0000000011101110 = some .ret ∧ decodeWord 0b1011001000000100 = some (.jpV0 0x204) ∧
    decodeWord 0b0011000111111110 = some (.seImm 0x1 0xFE) ∧ decodeWord 0b0100101000010000 = some (.sneImm 0xA 0x10) ∧
    decodeWord 0b0101000100100000 = some (.seReg 0x1 0x2) ∧ decodeWord 0b1001110101110000 = some (.sneReg 0xD 0x7) := by
  decide
theorem test_decode_bits_alu :
    decodeWord 0b0110101000101111 = some (.ldImm 0xA 0x2F) ∧ decodeWord 0b0111000111111111 = some (.addImm 0x1 0xFF) ∧
    decodeWord 0b1000000100100000 = some (.ldReg 0x1 0x2) ∧ decodeWord 0b1000000100100001 = some (.orReg 0x1 0x2) ∧
    decodeWord 0b1000000100100010 = some (.andReg 0x1 0x2) ∧ decodeWord 0b1000000100100011 = some (.xorReg 0x1 0x2) ∧
    decodeWord 0b1000000100100100 = some (.addReg 0x1 0x2) ∧ decodeWord 0b1000000100100101 = some (.sub 0x1 0x2) := by
  decide
theorem test_decode_bits_alu2 :
    decodeWord 0b1000101010110110 = some (.shr 0xA 0xB) ∧ decodeWord 0b1000000100100111 = some (.subn 0x1 0x2) ∧
    decodeWord 0b1000101010111110 = some (.shl 0xA 0xB) ∧ decodeWord 0b1100001100001111 = some (.rnd 0x3 0x0F) := by
  decide
theorem test_decode_bits_memory :
    decodeWord 0b1010001100000000 = some (.ldI 0x300) ∧ decodeWord 0b1111001000011110 = some (.addI 0x2) ∧
    decodeWord 0b1111000000101001 = some (.ldF 0x0) ∧ decodeWord 0b1111000100110011 = some (.ldB 0x1) ∧
    decodeWord 0b1111001001010101 = some (.storeRegs 0x2) ∧ decodeWord 0b1111111101100101 = some (.loadRegs 0xF) := by
  decide
theorem test_decode_bits_display :
    decodeWord 0b0000000011100000 = some .cls ∧ decodeWord 0b0000000011111110 = some .low ∧
    decodeWord 0b0000000011111111 = some .high ∧ decodeWord 0b1101000100100101 = some (.drw 0x1 0x2 0x5) := by
  decide
theorem test_decode_bits_keys :
    decodeWord 0b1110000110011110 = some (.skp 0x1) ∧ decodeWord 0b1110000110100001 = some (.sknp 0x1) ∧
    decodeWord 0b1111001100000111 = some (.ldVxDt 0x3) ∧ decodeWord 0b1111001100001010 = some (.ldVxK 0x3) ∧
    decodeWord 0b1111000000010101 = some (.ldDtVx 0x0) ∧ decodeWord 0b1111000100011000 = some (.ldStVx 0x1) := by
  decide
/-- T2: the maximal words of the patterns, with every operand at its largest. -/
theorem test_decode_maximal :
    decodeWord 0x1FFF = some (.jp 0xFFF) ∧ decodeWord 0x5FF0 = some (.seReg 0xF 0xF) ∧
    decodeWord 0x8FFE = some (.shl 0xF 0xF) ∧ decodeWord 0x9FF0 = some (.sneReg 0xF 0xF) ∧
    decodeWord 0xDFFF = some (.drw 0xF 0xF 0xF) ∧ decodeWord 0xEF9E = some (.skp 0xF) ∧
    decodeWord 0xEFA1 = some (.sknp 0xF) ∧ decodeWord 0xFF0A = some (.ldVxK 0xF) := by decide
/-- T3: X1 to X11, words that match no pattern. -/
theorem test_decode_miss_low :
    decodeWord 0x0000 = none ∧ decodeWord 0x00E1 = none ∧ decodeWord 0x00EF = none ∧ decodeWord 0x00FD = none ∧
    decodeWord 0x00C1 = none ∧ decodeWord 0x0123 = none ∧ decodeWord 0x5001 = none ∧ decodeWord 0x512F = none ∧
    decodeWord 0x8008 = none ∧ decodeWord 0x812D = none ∧ decodeWord 0x812F = none := by decide
/-- T3: X12 to X21. -/
theorem test_decode_miss_high :
    decodeWord 0x9001 = none ∧ decodeWord 0xE000 = none ∧ decodeWord 0xE19F = none ∧ decodeWord 0xE1A0 = none ∧
    decodeWord 0xF000 = none ∧ decodeWord 0xF030 = none ∧ decodeWord 0xF075 = none ∧ decodeWord 0xF085 = none ∧
    decodeWord 0xF1FF = none ∧ decodeWord 0xFFFF = none := by decide
/-- R95, R90: the decoder on bytes rejects by name. -/
theorem test_decode_bytes :
    decodeBytes [0x23, 0x00, 0x55] = .ok (.call 0x300, [0x55]) ∧ decodeBytes [0x00, 0x00] = .error (.noHandler 0x0000) ∧
    decodeBytes [0x12] = .error .truncated := ⟨rfl, rfl, rfl⟩
/-- spec/opcode_table.json's numbering: bit 0 is the least significant bit of the word. -/
theorem test_decode_table : decodeTableWord 16 0xD125 = some (.drw 0x1 0x2 0x5) ∧ decodeTableWord 16 0 = none := by decide
/-- R62: the high byte lies at the lower address. -/
theorem test_encode_bytes : encodeBytes (.call 0x3AB) = [0x23, 0xAB] ∧ encode (.shr 0xA 0xB) = 0x8AB6 := by decide
/-- T2: texts of the disassembler. -/
theorem test_disasm_text :
    disasmChars (.call 0xFFF) = "CALL 0xFFF".toList ∧ disasmChars (.seImm 0 0) = "SE V0, 0x00".toList ∧
    disasmChars (.drw 0xF 0xF 0xF) = "DRW VF, VF, 0xF".toList ∧ disasmChars (.loadRegs 0) = "LD V0, [I]".toList ∧
    disasmChars (.shr 0xA 0xB) = "SHR VA".toList ∧ disasmChars (.jpV0 0xFFF) = "JP V0, 0xFFF".toList := by decide
/-- R130: a query at 0x200, "no handler" at an empty address, a refusal at an odd one (U10). -/
theorem test_disasm_query :
    disasm (start 0xE19E) 0x200 = .ok (some (disasmText (.skp 1))) ∧ disasm (start 0xE19E) 0x300 = .ok none ∧
    disasm (start 0xE19E) 0x201 = .error (.disasmAddress 0x201) := by
  refine ⟨?_, ?_, ?_⟩ <;> rfl

/-! ### One step: the vectors of T3 to T9 -/

theorem test_X1_decode_miss :
    gives (step (start 0x0000))
      (fun t => t.pc == 0x0200 && t.fault == .decodeMiss && t.faultInfo == 0x0000 && t.runState == .paused) = true := by decide
theorem test_T9_miss_at_the_last_address :
    gives (step (ready 0xFFE 0x0000))
      (fun t => t.pc == 0x0FFE && t.fault == .decodeMiss && t.faultInfo == 0x0000 && t.runState == .paused) = true := by decide

/-! Control transfer (T4) -/

theorem test_V1_ret :
    gives (step { ready 0x300 0x00EE with sp := 1, stack := State.reset.stack.set 0 0x0204 })
      (fun t => t.pc == 0x0204 && t.sp == 0 && t.stack[0] == 0x0204) = true := by decide
theorem test_V3_ret_to_0x1000 :
    gives (step { ready 0x400 0x00EE with sp := 1, stack := State.reset.stack.set 0 0x1000 })
      (fun t => t.pc == 0x1000 && t.sp == 0 && t.fault == .pcOutOfRange && t.faultInfo == 0x1000 && t.runState == .paused) = true := by decide
theorem test_V7_jp_out_of_range :
    gives (step (start 0x1FFF))
      (fun t => t.pc == 0x0FFF && t.fault == .pcOutOfRange && t.faultInfo == 0x0FFF && t.runState == .paused) = true := by decide
theorem test_V8_jp_odd :
    gives (step (start 0x1201))
      (fun t => t.pc == 0x0201 && t.fault == .pcMisaligned && t.faultInfo == 0x0201 && t.runState == .paused) = true := by decide
theorem test_V13_call_sixteenth_entry :
    gives (step { start 0x2300 with sp := 15 })
      (fun t => t.pc == 0x0300 && t.sp == 16 && t.stack[15] == 0x0202 && t.fault == .none) = true := by decide
theorem test_V17_call_keeps_the_push :
    gives (step (start 0x2301))
      (fun t => t.pc == 0x0301 && t.sp == 1 && t.stack[0] == 0x0202 && t.fault == .pcMisaligned && t.faultInfo == 0x0301 && t.runState == .paused) = true := by decide
theorem test_V18_se_byte_taken : gives (step (ready 0x208 0x3100)) (fun t => t.pc == 0x020C) = true := by decide
theorem test_V20_se_byte_beyond_the_end :
    gives (step (ready 0xFFC 0x3100))
      (fun t => t.pc == 0x1000 && t.fault == .pcOutOfRange && t.faultInfo == 0x1000 && t.runState == .paused) = true := by decide
theorem test_V24_sne_byte_taken :
    gives (step ((ready 0x300 0x4A10).setV 0xA 0x11))
      (fun t => t.pc == 0x0304) = true := by decide
theorem test_V25_sne_byte_not_taken :
    gives (step ((ready 0x300 0x4A10).setV 0xA 0x10))
      (fun t => t.pc == 0x0302) = true := by decide
theorem test_V26_se_reg_taken :
    gives (step (((start 0x5120).setV 0x1 0x7F).setV 0x2 0x7F))
      (fun t => t.pc == 0x0204) = true := by decide
theorem test_V27_se_reg_not_taken :
    gives (step (((start 0x5120).setV 0x1 0x7F).setV 0x2 0x7E))
      (fun t => t.pc == 0x0202) = true := by decide
theorem test_V29_sne_reg_taken :
    gives (step (((start 0x9120).setV 0x1 0x01).setV 0x2 0x02))
      (fun t => t.pc == 0x0204) = true := by decide
theorem test_V30_sne_reg_not_taken :
    gives (step (((start 0x9120).setV 0x1 0x02).setV 0x2 0x02))
      (fun t => t.pc == 0x0202) = true := by decide
theorem test_V35_jp_v0_largest :
    gives (step ((start 0xBFFF).setV 0x0 0xFF))
      (fun t => t.pc == 0x10FE && t.fault == .pcOutOfRange && t.faultInfo == 0x10FE && t.runState == .paused) = true := by decide
theorem test_V36_jp_v0_uses_v0 :
    gives (step ((start 0xB2FE).setV 0x2 0x10))
      (fun t => t.pc == 0x02FE && t.fault == .none) = true := by decide

/-! Register file and ALU (T5) -/

theorem test_A1_ld_byte :
    gives (step (start 0x6A2F))
      (fun t => t.pc == 0x0202 && t.getV 0xA == 0x2F) = true := by decide
theorem test_A44_ld_byte_then_pc_fault :
    gives (step (ready 0xFFE 0x6000))
      (fun t => t.pc == 0x1000 && t.fault == .pcOutOfRange && t.faultInfo == 0x1000 && t.runState == .paused) = true := by decide
theorem test_A5_add_byte_no_flag :
    gives (step (((start 0x7101).setV 0x1 0xFF).setV 0xF 0x01))
      (fun t => t.getV 0x1 == 0x00 && t.getV 0xF == 0x01 && t.pc == 0x0202) = true := by decide
theorem test_A6_add_byte_to_vf :
    gives (step ((start 0x7F02).setV 0xF 0xFF))
      (fun t => t.getV 0xF == 0x01) = true := by decide
theorem test_A8_ld_reg_to_vf :
    gives (step ((start 0x8F10).setV 0x1 0x80))
      (fun t => t.getV 0xF == 0x80 && t.pc == 0x0202) = true := by decide
theorem test_A9_or :
    gives (step ((((start 0x8121).setV 0x1 0xF0).setV 0x2 0x0F).setV 0xF 0x01))
      (fun t => t.getV 0x1 == 0xFF && t.getV 0xF == 0x01) = true := by decide
theorem test_A10_and :
    gives (step ((((start 0x8122).setV 0x1 0xF3).setV 0x2 0x3F).setV 0xF 0x01))
      (fun t => t.getV 0x1 == 0x33 && t.getV 0xF == 0x01) = true := by decide
theorem test_A11_xor :
    gives (step ((((start 0x8123).setV 0x1 0xFF).setV 0x2 0x0F).setV 0xF 0x01))
      (fun t => t.getV 0x1 == 0xF0 && t.getV 0xF == 0x01) = true := by decide
theorem test_A13_add_carry :
    gives (step (((start 0x8014).setV 0x0 0xFF).setV 0x1 0x01))
      (fun t => t.getV 0x0 == 0x00 && t.getV 0xF == 0x01 && t.pc == 0x0202) = true := by decide
theorem test_A18_add_to_vf :
    gives (step (((start 0x8F14).setV 0x1 0x01).setV 0xF 0x01))
      (fun t => t.getV 0xF == 0x00) = true := by decide
theorem test_A20_sub_borrow :
    gives (step ((((start 0x8015).setV 0x0 0x01).setV 0x1 0x02).setV 0xF 0x01))
      (fun t => t.getV 0x0 == 0xFF && t.getV 0xF == 0x00) = true := by decide
theorem test_A22_sub_equal :
    gives (step (((start 0x8015).setV 0x0 0x07).setV 0x1 0x07))
      (fun t => t.getV 0x0 == 0x00 && t.getV 0xF == 0x01) = true := by decide
theorem test_A27_shr_ignores_y :
    gives (step ((((start 0x8AB6).setV 0xA 0x04).setV 0xB 0xFF).setV 0xF 0x01))
      (fun t => t.getV 0xA == 0x02 && t.getV 0xF == 0x00) = true := by decide
theorem test_A30_shr_of_vf :
    gives (step ((start 0x8F06).setV 0xF 0x02))
      (fun t => t.getV 0xF == 0x00) = true := by decide
theorem test_A32_subn_borrow :
    gives (step ((((start 0x8127).setV 0x1 0x05).setV 0x2 0x02).setV 0xF 0x01))
      (fun t => t.getV 0x1 == 0xFD && t.getV 0xF == 0x00) = true := by decide
theorem test_A34_subn_to_vf :
    gives (step ((start 0x8F27).setV 0xF 0x01))
      (fun t => t.getV 0xF == 0x00) = true := by decide
theorem test_A36_shl_ignores_y :
    gives (step ((((start 0x8ABE).setV 0xA 0x40).setV 0xB 0xFF).setV 0xF 0x01))
      (fun t => t.getV 0xA == 0x80 && t.getV 0xF == 0x00) = true := by decide
theorem test_A39_shl_of_vf :
    gives (step ((start 0x8F0E).setV 0xF 0x7F))
      (fun t => t.getV 0xF == 0x00) = true := by decide
/-- A41: with kk = 0 the result is 0 whatever the draw. -/
theorem test_A41_rnd_of_zero : ((after (exec (.rnd 3 0x00) ((start 0xC300).setV 3 0x55))).getV 3) = 0x00 :=
  (State.getV_setV _ _ _ _).trans (BitVec.and_zero)
/-- R171: a draw is used up, so that the next `RND` takes another. -/
theorem test_rnd_counts_draws : gives (step (start 0xC3FF)) (fun t => t.draws == 1 && t.pc == 0x0202) = true := by decide

/-! Index register and memory (T6) -/

theorem test_M2_ld_i : gives (step (start 0xAFFF)) (fun t => t.pc == 0x0202 && t.i == 0x0FFF) = true := by decide
theorem test_M4_add_i_passes_0xFFF :
    gives (step { ((start 0xF21E).setV 0x2 0x01).setV 0xF 0x00 with i := 0x0FFF })
      (fun t => t.i == 0x1000 && t.fault == .none && t.getV 0xF == 0x00) = true := by decide
theorem test_M5_add_i_wraps :
    gives (step { (start 0xF21E).setV 0x2 0x01 with i := 0xFFFF })
      (fun t => t.i == 0x0000 && t.fault == .none) = true := by decide
theorem test_M6_ld_f :
    gives (step ((start 0xF029).setV 0x0 0x0A))
      (fun t => t.i == 0x0032 && t.pc == 0x0202) = true := by decide
theorem test_M7_ld_f_low_nibble :
    gives (step ((start 0xF029).setV 0x0 0x1F))
      (fun t => t.i == 0x004B) = true := by decide
theorem test_M11_bcd_at_the_last_address :
    gives (step { (start 0xF033).setV 0x0 0xFF with i := 0x0FFD })
      (fun t => t.readByte 0xFFD == 0x02 && t.readByte 0xFFE == 0x05 && t.readByte 0xFFF == 0x05 && t.fault == .none) = true := by decide
theorem test_M12_bcd_beyond_the_end :
    gives (step { (start 0xF033).setV 0x0 0xFF with i := 0x0FFE })
      (fun t => t.pc == 0x0200 && t.fault == .memRange && t.faultInfo == 0x0FFE && t.runState == .paused && t.readByte 0xFFE == 0x00) = true := by decide
theorem test_M14_store_block :
    gives (step { ((((start 0xF255).setV 0x0 0x11).setV 0x1 0x22).setV 0x2 0x33).setV 0x3 0x44 with i := 0x0400 })
      (fun t => t.readByte 0x400 == 0x11 && t.readByte 0x402 == 0x33 && t.readByte 0x403 == 0x00 && t.i == 0x0400) = true := by decide
theorem test_M16_store_block_beyond_the_end :
    gives (step { ((start 0xF155).setV 0x0 0xAB).setV 0x1 0xCD with i := 0x0FFF })
      (fun t => t.pc == 0x0200 && t.fault == .memRange && t.faultInfo == 0x0FFF && t.runState == .paused && t.readByte 0xFFF == 0x00) = true := by decide
theorem test_M19_load_block :
    gives (step { (start 0xF265).writeBytes 0x300 [0x02, 0x05, 0x04, 0x09] with i := 0x0300 })
      (fun t => t.getV 0x0 == 0x02 && t.getV 0x2 == 0x04 && t.getV 0x3 == 0x00 && t.pc == 0x0202) = true := by decide
theorem test_M20_load_block_beyond_the_end :
    gives (step { (((start 0xF165).writeBytes 0xFFF [0x77]).setV 0x0 0x01).setV 0x1 0x02 with i := 0x0FFF })
      (fun t => t.pc == 0x0200 && t.fault == .memRange && t.faultInfo == 0x0FFF && t.runState == .paused && t.getV 0x0 == 0x01) = true := by decide

/-! Display (T7) -/

theorem test_G1_cls :
    gives (step (lit ((start 0x00E0).setV 0xF 0x01) [(0, 0), (63, 31)]))
      (fun t => t.pc == 0x0202 && litCount t == 0 && t.getV 0xF == 0x01) = true := by decide
theorem test_G2_high :
    gives (step (lit (start 0x00FF) [(5, 5)]))
      (fun t => t.mode == .extended && litCount t == 0) = true := by decide
theorem test_G3_low :
    gives (step (lit { start 0x00FE with mode := .extended } [(100, 50)]))
      (fun t => t.mode == .standard && litCount t == 0) = true := by decide
theorem test_G7_drw_wraps :
    gives (step { (((start 0xD012).writeBytes 0x300 [0xF0, 0x80]).setV 0x0 0x3E).setV 0x1 0x1F with i := 0x0300 })
      (fun t => litCount t == 5 && t.pixel 62 31 && t.pixel 63 31 && t.pixel 0 31 && t.pixel 1 31 && t.pixel 62 0) = true := by decide
theorem test_G14_drw_collision :
    gives (step (lit { (start 0xD001).writeBytes 0x300 [0xC0] with i := 0x0300 } [(0, 0)]))
      (fun t => litCount t == 1 && t.pixel 1 0 && t.getV 0xF == 0x01) = true := by decide
theorem test_G16_drw_column_is_the_old_vf :
    gives (step { ((start 0xDF01).writeBytes 0x300 [0x80]).setV 0xF 0x05 with i := 0x0300 })
      (fun t => litCount t == 1 && t.pixel 5 0 && t.getV 0xF == 0x00) = true := by decide

/-! Keys and timers (T8) -/

theorem test_K3_skp_low_nibble :
    gives (step { (start 0xE19E).setV 0x1 0x1A with key := State.reset.key.set 10 true })
      (fun t => t.pc == 0x0204) = true := by decide
theorem test_K2_skp_up : gives (step ((start 0xE19E).setV 0x1 0x05)) (fun t => t.pc == 0x0202) = true := by decide
theorem test_K4_sknp_up : gives (step ((start 0xE1A1).setV 0x1 0x05)) (fun t => t.pc == 0x0204) = true := by decide
theorem test_K5_sknp_down :
    gives (step { (start 0xE1A1).setV 0x1 0x05 with key := State.reset.key.set 5 true })
      (fun t => t.pc == 0x0202) = true := by decide
theorem test_K6_ld_vx_dt :
    gives (step { start 0xF307 with dt := 0x2A })
      (fun t => t.getV 0x3 == 0x2A && t.pc == 0x0202) = true := by decide
theorem test_K7_ld_dt_vx :
    gives (step ((start 0xF015).setV 0x0 0x3C))
      (fun t => t.dt == 0x3C && t.st == 0x00) = true := by decide
theorem test_K8_ld_st_vx :
    gives (step ((start 0xF118).setV 0x1 0x08))
      (fun t => t.st == 0x08 && t.dt == 0x00) = true := by decide
theorem test_K11_ld_vx_k :
    gives (step { start 0xF30A with key := State.reset.key.set 4 true })
      (fun t => t.pc == 0x0202 && t.waitKey && t.waitReg == 3 && t.getV 3 == 0x00) = true := by decide
theorem test_K12_ld_vx_k_then_pc_fault :
    gives (step (ready 0xFFE 0xF30A))
      (fun t => t.waitKey && t.fault == .pcOutOfRange && t.faultInfo == 0x1000 && t.runState == .paused) = true := by decide

/-! Events (T8) and the schedule (R268) -/

theorem test_E_K10c_key_down_completes :
    gives (applyEvent (.keyDown 0xB) (after (step (start 0xF30A))))
      (fun t => t.key[11] && t.getV 3 == 0x0B && !t.waitKey && t.enabled) = true := by decide
theorem test_E_K10a_key_up_does_not :
    gives (applyEvent (.keyUp 2) (after (step (start 0xF30A)))) (fun t => t.waitKey && !t.enabled) = true := by decide
theorem test_E_T1_timer_tick :
    gives (applyEvent .timerTick { start 0 with dt := 0x02 }) (fun t => t.dt == 0x01 && t.st == 0x00) = true := by decide
theorem test_E_R2_set_run_keeps_the_fault :
    gives (applyEvent (.setRun .running) (after (step (start 0x0000))))
      (fun t => t.runState == .running && t.fault == .decodeMiss && !t.enabled) = true := by decide
theorem test_E_R3_reset_clears_the_fault :
    gives (applyEvent .reset { after (step (start 0x00EE)) with runState := .running })
      (fun t => t.fault == .none && t.pc == 0x0200 && t.mem == [] && t.runState == .running) = true := by decide
theorem test_E5_load_the_last_byte :
    gives (applyEvent (.load [0x07] 4095) State.reset) (fun t => t.readByte 0xFFF == 0x07) = true := by decide
theorem test_E6_load_rom_too_long_resets :
    gives (applyEvent (.loadRom [0x01, 0x02] 4095) (startBytes 0x00EE 0x200 [0xAA]))
      (fun t => t.mem == [] && t.pc == 0x0200) = true := by decide
/-- R196: 80 bytes, glyph 7 (F0 10 20 40 40) at 0x023 to 0x027 of the table. -/
theorem test_glyph_table : glyphTable.length = 80 ∧ (glyphTable.drop 0x23).take 5 = [0xF0, 0x10, 0x20, 0x40, 0x40] ∧
    glyphLoad Config.default = .load glyphTable 0x000 := ⟨by decide, by decide, rfl⟩
/-- R292, D34: LOAD_ROM clears the fault and the registers and keeps `run_state`. -/
theorem test_load_rom_resets_and_keeps_run_state :
    gives (applyEvent (.loadRom [0x12] 0x200) { (after (step (start 0x0000))).setV 1 0x07 with runState := .running })
      (fun t => t.runState == .running && t.fault == .none && t.getV 1 == 0x00 && t.mem == [(0x200, 0x12)]) = true := by
  decide
theorem test_event_before_the_core :
    gives (step { start 0xF307 with schedule := [.event (.setRun .paused), .core] })
      (fun t => t.pc == 0x0200 && t.runState == .paused && t.schedule == [.core]) = true := by decide
theorem test_paused_core_does_nothing : gives (step State.reset) (fun t => t == State.reset) = true := by decide
theorem test_withFetchWord :
    gives (step (State.reset.withFetchWord 16 0x6A2F)) (fun t => t.getV 0xA == 0x2F && t.pc == 0x0202) = true := by decide
/-- R40, R41, U9: the pixel port inside and outside the buffer. -/
theorem test_pixel_port :
    (match (start 0xD001).pixelPort 128 0 with | .error r => r == .pixelOutsideBuffer 128 0 | .ok _ => false) = true ∧
    (match (start 0xD001).pixelPort 127 63 with | .error _ => false | .ok b => !b) = true := by decide
/-- R40, R251: the ports of a state, the code of a fault. -/
theorem test_ports : (start 0xD001).ports.pc = 0x0200 ∧ FaultCode.memRange.code = 6 := by decide

/-! ### Witnesses: for every statement with hypotheses, a concrete state and operands that meet them together, each
clause at a boundary of its range -/

theorem next_after {r : Result} (h : gives r (fun _ => true) = true) : r = .next (after r) := by
  cases r with
  | next t => rfl
  | fault f => cases h
  | refused f => cases h

theorem atInstr_of {s : State} {i : Instr} (h1 : s.enabled = true) (h2 : s.schedule = [])
    (h3 : s.pc.toNat % 2 = 0 ∧ s.pc.toNat ≤ pcMax) (h4 : decodeWord (s.readWord s.pc.toNat) = some i) : AtInstr s i :=
  ⟨h1, h2, h3, h4⟩

theorem stateInv_of {s : State} (hm : s.mem.wf = true) (hf : FaultInfoOk s)
    (hd : s.mode = .extended ∨ s.fb = Framebuffer.dark)
    (hl : ∀ j : Fin 16, j.val < s.sp.val → s.stack[j].toNat % 2 = 0 ∧ s.stack[j].toNat ≤ 0x1000)
    (hc : s.config.wf = true) : StateInv s := by
  refine ⟨hm, hf, fun h px py _ => ?_, hl, hc⟩
  rcases hd with h' | h'
  · rw [h'] at h; cases h
  · rw [State.pixel, h']; exact pixel_dark px py

/-- In a subroutine: a live stack entry 0x1000, the largest, and memory with contents. -/
def inSub : State := { ready 0x0FFC 0x00EE with sp := 1, stack := State.reset.stack.set 0 0x1000 }

theorem inSub_inv : StateInv inSub :=
  stateInv_of (by decide) (show pcLegal _ ∧ _ from ⟨⟨by decide, by decide⟩, by decide⟩) (.inr (by decide)) (by decide)
    (by decide)

/-- In extended mode with a lit pixel outside the standard screen, and a pc fault recorded. -/
def faulted : State :=
  { lit (ready 0x1000 0x0000) [(100, 50)] with
    mode := .extended, fault := .pcOutOfRange, faultInfo := 0x1000, runState := .paused }

theorem faulted_inv : StateInv faulted :=
  stateInv_of (by decide) (show _ ∧ _ from ⟨by decide, by decide⟩) (.inl rfl) (by decide) (by decide)

theorem witness_EveryStepKeepsInvariant : ∃ s s', StateInv s ∧ step s = .next s' ∧ s'.fault = .pcOutOfRange :=
  ⟨inSub, _, inSub_inv, next_after (by decide), by decide⟩
theorem witness_EveryStepKeepsInvariant_event : ∃ s s', StateInv s ∧ step s = .next s' ∧ s'.fault = .none :=
  ⟨{ faulted with schedule := [.event .reset] }, _,
    stateInv_of (by decide) (show _ ∧ _ from ⟨by decide, by decide⟩) (.inl rfl) (by decide) (by decide),
    next_after (by decide), by decide⟩

theorem at_jp_FFF : AtInstr (start 0x1FFF) (.jp 0xFFF) := atInstr_of (by decide) rfl (by decide) (by decide)
theorem at_jp_201 : AtInstr (start 0x1201) (.jp 0x201) := atInstr_of (by decide) rfl (by decide) (by decide)
theorem at_jp_FFE : AtInstr (start 0x1FFE) (.jp 0xFFE) := atInstr_of (by decide) rfl (by decide) (by decide)

theorem witness_StepRunsDecodedInstruction : ∃ s i, AtInstr s i ∧ i.wf = true := ⟨_, _, at_jp_FFE, by decide⟩
theorem witness_StepRunsDecodedInstruction_empty : ∃ s : State, s.schedule = [] ∧ s.enabled = true :=
  ⟨start 0x1FFE, rfl, by decide⟩

theorem witness_NewPcIsChecked_range : ∃ s t i, AtInstr s i ∧ exec i s = .next t ∧ t.fault = .none ∧
    0xFFE < t.pc.toNat := ⟨_, _, _, at_jp_FFF, next_after (by decide), by decide, by decide⟩
theorem witness_NewPcIsChecked_odd : ∃ s t i, AtInstr s i ∧ exec i s = .next t ∧ t.fault = .none ∧
    t.pc.toNat ≤ 0xFFE ∧ t.pc.toNat % 2 = 1 :=
  ⟨_, _, _, at_jp_201, next_after (by decide), by decide, by decide, by decide⟩
theorem witness_NewPcIsChecked_legal : ∃ s t i, AtInstr s i ∧ exec i s = .next t ∧ t.fault = .none ∧
    t.pc.toNat ≤ 0xFFE ∧ t.pc.toNat % 2 = 0 :=
  ⟨_, _, _, at_jp_FFE, next_after (by decide), by decide, by decide, by decide⟩

theorem witness_DecodeMissStopsTheCore : ∃ s : State, s.enabled = true ∧ s.schedule = [] ∧ pcLegal s.pc ∧
    decodeWord (s.readWord s.pc.toNat) = none :=
  ⟨ready 0xFFE 0x00E1, by decide, rfl, ⟨by decide, by decide⟩, by decide⟩

theorem witness_CycleIsEnabledExactly_disabled : ∃ s t u : State,
    (s.schedule = [] ∧ s.runState = .paused) ∧ (t.schedule = [] ∧ t.runState = .running ∧ t.fault ≠ .none) ∧
    (u.schedule = [] ∧ u.runState = .running ∧ u.fault = .none ∧ u.waitKey = true) :=
  ⟨State.reset, { faulted with runState := .running }, { start 0x1200 with waitKey := true }, by decide, by decide,
    by decide⟩
theorem witness_CycleIsEnabledExactly_enabled : ∃ s : State,
    s.schedule = [] ∧ s.runState = .running ∧ s.fault = .none ∧ s.waitKey = false := ⟨start 0x1200, by decide⟩
theorem witness_CycleIsEnabledExactly_event : ∃ (s : State) (e : HostEvent) (rest : List Turn),
    s.schedule = .event e :: rest := ⟨{ faulted with schedule := [.event (.keyUp 15)] }, _, _, rfl⟩
theorem witness_CycleIsEnabledExactly_wait : ∃ s t : State, s.waitKey = true ∧ step s = .next t ∧ t.waitKey = false :=
  ⟨{ start 0x1200 with waitKey := true, schedule := [.event (.keyDown 15)] }, _, by decide, next_after (by decide),
    by decide⟩

theorem witness_FaultIsStickyUntilReset_stays : ∃ s t : State, s.fault ≠ .none ∧ step s = .next t ∧
    (∀ rest, s.schedule ≠ .event .reset :: rest ∧ ∀ bytes addr, s.schedule ≠ .event (.loadRom bytes addr) :: rest) :=
  ⟨{ faulted with schedule := [.event (.setRun .running)] }, _, by decide, next_after (by decide), by simp⟩
theorem witness_FaultIsStickyUntilReset_reset : ∃ s t : State, s.fault ≠ .none ∧ step s = .next t ∧
    s.schedule = [.event .reset] := ⟨{ faulted with schedule := [.event .reset] }, _, by decide, next_after (by decide), rfl⟩
theorem witness_FaultIsStickyUntilReset_loadRom : ∃ s t : State, s.fault ≠ .none ∧ step s = .next t ∧
    s.schedule = [.event (.loadRom [] 4097)] :=
  ⟨{ faulted with schedule := [.event (.loadRom [] 4097)] }, _, by decide, next_after (by decide), rfl⟩

theorem witness_PreciseFaults_overflow : ∃ i s t, s.fault = .none ∧ exec i s = .next t ∧ t.fault = .stackOverflow :=
  ⟨.call 0xFFF, { start 0x2FFF with sp := 16 }, _, by decide, next_after (by decide), by decide⟩
theorem witness_PreciseFaults_underflow : ∃ i s t, s.fault = .none ∧ exec i s = .next t ∧ t.fault = .stackUnderflow :=
  ⟨.ret, start 0x00EE, _, by decide, next_after (by decide), by decide⟩
theorem witness_PreciseFaults_range : ∃ i s t, s.fault = .none ∧ exec i s = .next t ∧ t.fault = .memRange :=
  ⟨.ldB 0, { start 0xF033 with i := 0xFFE }, _, by decide, next_after (by decide), by decide⟩

theorem witness_StepStopsOnlyOutsideTheInterface_next : ∃ s t, StateInv s ∧ step s = .next t :=
  ⟨inSub, _, inSub_inv, next_after (by decide)⟩
theorem witness_StepStopsOnlyOutsideTheInterface_refused : ∃ s, StateInv s ∧ s.schedule = [.event (.keyDown 16)] ∧
    step s = .refused (.keyIndexOutOfRange 16) :=
  ⟨{ inSub with schedule := [.event (.keyDown 16)] },
    stateInv_of (by decide) (show pcLegal _ ∧ _ from ⟨⟨by decide, by decide⟩, by decide⟩) (.inr (by decide))
      (by decide) (by decide), rfl, rfl⟩

theorem witness_PcAdvances_plain : ∃ i s t, s.fault = .none ∧ exec i s = .next t ∧ t.fault = .none ∧
    pcRule s i = .plain :=
  ⟨.storeRegs 0xF, { start 0xFF55 with i := 0xFF0 }, _, by decide, next_after (by decide), by decide, rfl⟩
theorem witness_PcAdvances_taken : ∃ i s t, s.fault = .none ∧ exec i s = .next t ∧ t.fault = .none ∧
    pcRule s i = .skip true := ⟨.seImm 1 0, start 0x3100, _, by decide, next_after (by decide), by decide, by decide⟩
theorem witness_PcAdvances_notTaken : ∃ i s t, s.fault = .none ∧ exec i s = .next t ∧ t.fault = .none ∧
    pcRule s i = .skip false := ⟨.skp 1, start 0xE19E, _, by decide, next_after (by decide), by decide, by decide⟩
theorem witness_PcAdvances_explicit : ∃ i s t, s.fault = .none ∧ exec i s = .next t ∧ t.fault = .none ∧
    pcRule s i = .explicit := ⟨.call 0x300, start 0x2300, _, by decide, next_after (by decide), by decide, rfl⟩

theorem witness_EachPiece_alu : ∃ i s t, exec i s = .next t ∧ (∀ x, i ≠ .ldB x ∧ i ≠ .storeRegs x) ∧
    (∀ x nnn, i ≠ .ldI nnn ∧ i ≠ .addI x ∧ i ≠ .ldF x) ∧ (∀ nnn, i ≠ .call nnn ∧ i ≠ .ret) ∧
    (∀ x, i ≠ .ldDtVx x) ∧ (∀ x, i ≠ .ldStVx x) ∧ (∀ x y n, i ≠ .cls ∧ i ≠ .low ∧ i ≠ .high ∧ i ≠ .drw x y n) ∧
    (∀ x, i ≠ .ldVxK x) ∧ (∀ x kk, i ≠ .rnd x kk) :=
  ⟨.addReg 0 1, start 0x8014, _, next_after (by decide), by simp, by simp, by simp, by simp, by simp, by simp, by simp,
    by simp⟩
theorem witness_EachPiece_fault : ∃ i s t, exec i s = .next t ∧ t.runState = .paused ∧ t.fault ≠ .none ∧ t.pc = s.pc :=
  ⟨.ldB 0, { start 0xF033 with i := 0xFFE }, _, next_after (by decide), by decide, by decide, by decide⟩
theorem witness_EachRegister : ∃ i s t j, exec i s = .next t ∧ ¬mayWriteV i j :=
  ⟨.loadRegs 0xE, start 0xFE65, _, 0xF, next_after (by decide), by simp [mayWriteV]⟩
theorem witness_SoundTimer : ∃ i s t, exec i s = .next t ∧ s.st = 0x05 :=
  ⟨.ldVxDt 3, { start 0xF307 with st := 0x05 }, _, next_after (by decide), rfl⟩

theorem witness_JumpToSelfStays : ∃ s : State, EndedWell s ∧ s.schedule = [] ∧ s.enabled = true :=
  ⟨ready 0xFFE 0x1FFE, ⟨rfl, by decide, by decide, ⟨by decide, by decide⟩, by decide⟩, rfl, by decide⟩
/-- R299: a paused core at a jump to itself has not ended. -/
theorem test_paused_has_not_ended : ¬EndedWell { start 0x1200 with runState := .paused } := fun h => by cases h.1

theorem witness_StoreIsSeenByTheNextFetch : ∃ (s t : State) (x j k : RegIndex), AtInstr s (.storeRegs x) ∧ s.mem.wf = true ∧
    s.i.toNat + x.toNat ≤ 0xFFF ∧ s.pc.toNat + 2 ≤ 0xFFE ∧ k.toNat = j.toNat + 1 ∧ k.toNat ≤ x.toNat ∧
    s.i.toNat + j.toNat = s.pc.toNat + 2 ∧ step s = .next t :=
  ⟨{ ready 0xFFC 0xF155 with i := 0xFFE }, _, 1, 0, 1, atInstr_of (by decide) rfl (by decide) (by decide), by decide,
    by decide, by decide, by decide, by decide, by decide, next_after (by decide)⟩

theorem witness_DecodeOfEncode : ∃ i : Instr, i.wf = true := ⟨.shr 0xF 0xF, by decide⟩
theorem witness_EncodeOfDecode : ∃ w i, decodeWord w = some i := ⟨0x8FF6, _, (by decide : _ = some (.shr 0xF 0xF))⟩
theorem witness_EveryMatchingWord : ∃ (o : Opcode) (w : Word), w &&& o.pattern.mask = o.pattern.matchBits :=
  ⟨.skp, 0xEF9E, by decide⟩
theorem witness_DisassemblyReadsTwoBytes_same : ∃ (s t : State) (a : Nat), s ≠ t ∧ t.readByte a = s.readByte a ∧
    t.readByte (a + 1) = s.readByte (a + 1) :=
  ⟨start 0x1200, (start 0x1200).setV 0 1, 0x200, by decide, by decide, by decide⟩
theorem witness_DisassemblyReadsTwoBytes_text : ∃ (s : State) (i : Instr) (a : Nat), a % 2 = 0 ∧ a ≤ 0xFFE ∧
    s.readWord a = encode i := ⟨ready 0xFFE 0x8AB6, .shr 0xA 0xB, 0xFFE, by decide⟩
theorem witness_DisassemblyReadsTwoBytes_miss : ∃ (s : State) (a : Nat), a % 2 = 0 ∧ a ≤ 0xFFE ∧
    decodeWord (s.readWord a) = none := ⟨ready 0xFFE 0x00E1, 0xFFE, by decide⟩
theorem witness_DisassemblyReadsTwoBytes_operand : ∃ (i : Instr) (op : List Char), op ∈ shownOperands i ∧
    op = "0xF".toList := ⟨.drw 0xF 0xF 0xF, _, by decide, rfl⟩
theorem witness_DisassemblyReadsTwoBytes_refused : ∃ a b : Nat, a % 2 = 1 ∧ a ≤ 0xFFE ∧ 0xFFE < b :=
  ⟨0xFFD, 0xFFF, by decide⟩

theorem witness_ReturnPopsTheStack : ∃ s t, StateInv s ∧ AtInstr s .ret ∧ 0 < s.sp.val ∧ step s = .next t :=
  ⟨inSub, _, inSub_inv, atInstr_of (by decide) rfl (by decide) (by decide), by decide, next_after (by decide)⟩
theorem witness_ReturnPopsTheStack_empty : ∃ s : State, s.sp.val = 0 := ⟨start 0x00EE, by decide⟩
theorem witness_JumpSetsPc : ∃ s t, AtInstr s (.jp 0xFFF) ∧ step s = .next t := ⟨_, _, at_jp_FFF, next_after (by decide)⟩
theorem witness_CallPushesTheStack_last : ∃ s : State, s.sp.val < 16 ∧ s.sp.val + 1 = 16 :=
  ⟨{ start 0x2300 with sp := 15 }, by decide⟩
theorem witness_CallPushesTheStack_full : ∃ s : State, s.sp.val = 16 ∧ AtInstr s (.call 0xFFF) :=
  ⟨{ start 0x2FFF with sp := 16 }, by decide, atInstr_of (by decide) rfl (by decide) (by decide)⟩
theorem witness_ReturnUndoesCall : ∃ s t, s.sp.val < 16 ∧ exec (.call 0x300) s = .next t :=
  ⟨{ start 0x2300 with sp := 15 }, _, by decide, next_after (by decide)⟩
theorem witness_SkipOnByte_range : ∃ s t, AtInstr s (.seImm 1 0) ∧ step s = .next t ∧ 0xFFE < t.pc.toNat :=
  ⟨ready 0xFFC 0x3100, _, atInstr_of (by decide) rfl (by decide) (by decide), next_after (by decide), by decide⟩
theorem witness_SkipOnByte_legal : ∃ s t, AtInstr s (.sneImm 1 0) ∧ step s = .next t ∧ t.pc.toNat ≤ 0xFFE :=
  ⟨ready 0xFFC 0x4100, _, atInstr_of (by decide) rfl (by decide) (by decide), next_after (by decide), by decide⟩
theorem witness_SkipOnRegister_range : ∃ s t, AtInstr s (.seReg 1 2) ∧ step s = .next t ∧ 0xFFE < t.pc.toNat :=
  ⟨ready 0xFFC 0x5120, _, atInstr_of (by decide) rfl (by decide) (by decide), next_after (by decide), by decide⟩
theorem witness_KeySkips_range : ∃ s t, AtInstr s (.skp 1) ∧ step s = .next t ∧ 0xFFE < t.pc.toNat :=
  ⟨ready 0xFFE 0xE19E, _, atInstr_of (by decide) rfl (by decide) (by decide), next_after (by decide), by decide⟩
theorem witness_SkipOnRegister : ∃ x y : RegIndex, x = y := ⟨0xF, 0xF, rfl⟩
theorem witness_SkipOnRegister_miss : ∃ n : Nibble, n ≠ 0 := ⟨0xF, by decide⟩
theorem witness_ALU_registers : ∃ x j : RegIndex, x ≠ 0xF ∧ j ≠ x ∧ j ≠ 0xF := ⟨0xE, 0x0, by decide⟩
theorem witness_RandomByteIsMasked : ∃ (kk : Byte) (b : Nat), b < 8 ∧ kk.getLsbD b = false := ⟨0x7F, 7, by decide⟩

theorem witness_BcdStoresThreeDigits : ∃ s : State, s.i.toNat + 2 ≤ 0xFFF ∧ s.mem.wf = true ∧ s.i.toNat + 2 = 0xFFF :=
  ⟨{ start 0xF033 with i := 0xFFD }, by decide⟩
theorem witness_BlockTransfer : ∃ (x : RegIndex) (s : State), s.i.toNat + x.toNat ≤ 0xFFF ∧ s.mem.wf = true ∧
    s.i.toNat + x.toNat = 0xFFF := ⟨0xF, { start 0xFF55 with i := 0xFF0 }, by decide⟩
theorem witness_BlockTransfer_registers : ∃ x k : RegIndex, k.toNat ≤ x.toNat := ⟨0xF, 0xF, by decide⟩
theorem witness_BlockTransfer_outside : ∃ (s : State) (a b : Nat), a < s.i.toNat ∧ s.i.toNat + 15 < b :=
  ⟨{ start 0xFF55 with i := 0x300 }, 0x2FF, 0x310, by decide⟩
theorem witness_BlockLoadUndoesBlockStore : ∃ x s t, s.mem.wf = true ∧ s.i.toNat + x.toNat ≤ 0xFFF ∧
    exec (.storeRegs x) s = .next t :=
  ⟨0xF, { start 0xFF55 with i := 0xFF0 }, _, by decide, by decide, next_after (by decide)⟩
theorem witness_MemRangeIsCheckedFirst : ∃ (i : Instr) (n : Nat) (s : State), accessCount i = some n ∧ 0 < n ∧
    0xFFF < s.i.toNat + n - 1 :=
  ⟨.drw 0 0 2, 2, { start 0xD002 with i := 0xFFF }, by decide⟩
theorem witness_MemRangeIsCheckedFirst_block : ∃ (i : Instr) (n : Nat) (s : State), accessCount i = some n ∧ 0 < n ∧
    0xFFF < s.i.toNat + n - 1 :=
  ⟨.loadRegs 0xF, 16, { start 0xFF65 with i := 0xFF1 }, by decide⟩

theorem witness_DrawXorsTheSprite_fits : ∃ (n : Nibble) (s : State), n ≠ 0 ∧ s.i.toNat + n.toNat - 1 ≤ 0xFFF ∧
    s.i.toNat + n.toNat - 1 = 0xFFF := ⟨0xF, { start 0xD00F with i := 0xFF1 }, by decide⟩
theorem witness_DrawXorsTheSprite_none : ∃ (n : Nibble) (s : State), n = 0 ∧ 0xFFF < s.i.toNat :=
  ⟨0, { start 0xD000 with i := 0xFFFF }, by decide⟩
theorem witness_DrawTwiceRestores : ∃ x y n s t u, x ≠ 0xF ∧ y ≠ 0xF ∧ s.fault = .none ∧
    exec (.drw x y n) s = .next t ∧ t.fault = .none ∧ exec (.drw x y n) t = .next u ∧ (∀ px py, s.pixel px py = false) :=
  ⟨0, 0, 1, { startBytes 0xD001 0x300 [0xFF] with i := 0x300 }, _, _, by decide, by decide, by decide,
    next_after (by decide), by decide, next_after (by decide), fun px py => pixel_dark px py⟩

theorem witness_KeyWaitHoldsUntilKeyDown : ∃ (k : Nat) (u : State), k < 16 ∧
    applyEvent (.keyUp k) { start 0xF30A with waitKey := true } = .next u :=
  ⟨15, _, by decide, next_after (by decide)⟩
theorem witness_KeyDown_indices : ∃ k l : Nat, k < 16 ∧ 16 ≤ l := ⟨15, 16, by decide⟩
theorem witness_KeyUpReleases : ∃ k : Nat, k ≤ 15 := ⟨15, by decide⟩
theorem witness_SetRunWritesOnlyRunState : ∃ (r : RunState) (s : State), s.runState = r := ⟨.paused, State.reset, rfl⟩
theorem witness_LoadIsAllOrNothing_fits : ∃ (bytes : List Byte) (addr : Nat) (s : State),
    bytes.length + addr ≤ 4096 ∧ bytes.length + addr = 4096 ∧ 0 < bytes.length ∧ s.mem.wf = true :=
  ⟨[0x07], 4095, start 0x1200, by decide⟩
theorem witness_LoadIsAllOrNothing_failure : ∃ (bytes : List Byte) (addr : Nat), 4096 < bytes.length + addr :=
  ⟨[0x07], 4096, by decide⟩
theorem witness_BootMakesTheCoreReady_event : ∃ (bytes : List Byte) (a b : Nat) (s : State), s.fault ≠ .none ∧
    s.mem ≠ [] ∧ bytes.length + a = 4096 ∧ 4096 < bytes.length + b :=
  ⟨[0x07], 4095, 4096, after (step (start 0x00EE)), by decide⟩
theorem witness_BootMakesTheCoreReady : ∃ a b : List Byte, a.length ≤ 3584 ∧ a.length = 3584 ∧ 3584 < b.length :=
  ⟨List.replicate 3584 0x01, List.replicate 3585 0x01, Nat.le_of_eq List.length_replicate, List.length_replicate,
    Nat.le_of_eq List.length_replicate.symm⟩

end Sys2Proof.Tests
end

section
/-! SUPPORT. The core's turn as an equation: the step of an enabled core whose turn it is, and the cycle of a word that
matches no pattern (40_dispatch.md R126 to R128). -/
namespace Sys2Proof.Machine

/-- With no turn scheduled the step is the core's turn (log 1). -/
theorem step_eq_coreTurn {s : State} (hs : s.schedule = []) : step s = coreTurn s := by
  rw [step, takeTurn, hs]

/-- The turn of an enabled core is one cycle (R127). -/
theorem coreTurn_eq_cycle {s : State} (he : s.enabled = true) : coreTurn s = cycle s := if_pos he

/-- The cycle of a word that no pattern matches takes the fault DecodeMiss and does nothing else (R128). -/
theorem cycle_eq_raise_decodeMiss {s : State} (hpc : pcLegal s.pc)
    (hmiss : decodeWord (s.readWord s.pc.toNat) = none) :
    cycle s = .next (s.raise .decodeMiss (s.readWord s.pc.toNat)) := by
  obtain ⟨heven, hle⟩ := hpc
  simp only [cycle, fetch_eq hle heven, hmiss]

/-- Settles O6: an enabled core whose turn it is cycles, and the cycle of a miss is fault entry alone. -/
theorem decodeMissStopsTheCore : Obligations.DecodeMissStopsTheCore := by
  intro s he hs hpc hmiss
  calc step s = coreTurn s := step_eq_coreTurn hs
    _ = cycle s := coreTurn_eq_cycle he
    _ = .next (s.raise .decodeMiss (s.readWord s.pc.toNat)) := cycle_eq_raise_decodeMiss hpc hmiss

end Sys2Proof.Machine
end

section
/-! SUPPORT. What `exec` does to pc for each of the pc rules of 40_dispatch.md R129. -/
namespace Sys2Proof.Machine

/-- What an instruction that is neither a skip nor an explicit transfer may answer in `s`: pc + 2 put on a state that
kept pc and the fault register, or MemRange raised in `s` (R65, R129). -/
inductive AdvancesOrMemRange (s : State) : Result → Prop
  | advance (u : State) (hpc : u.pc = s.pc) (hf : u.fault = s.fault) : AdvancesOrMemRange s (.next u.advance)
  | memRange : AdvancesOrMemRange s (.next (s.raise .memRange s.i))

/-- The range check of R65 before an access: `u` advanced when it passes, MemRange when it fails. -/
theorem AdvancesOrMemRange.of_check {s u : State} {ok : Bool} (hpc : u.pc = s.pc) (hf : u.fault = s.fault) :
    AdvancesOrMemRange s (if ok then .next u.advance else .next (s.raise .memRange s.i)) := by
  cases ok with
  | true => exact .advance u hpc hf
  | false => exact .memRange

/-- An instruction that is neither a skip nor an explicit transfer advances pc by 2, or raises MemRange (R129). -/
theorem exec_of_plain {i : Instr} {s : State} (h : pcRule s i = .plain) : AdvancesOrMemRange s (exec i s) := by
  cases i with
  | ret | jp | call | jpV0 => cases h
  | seImm | sneImm | seReg | sneReg | skp | sknp => cases h
  | drw | ldB | storeRegs | loadRegs => exact .of_check rfl rfl
  | rnd x kk => exact .advance { s.setV x (Config.rnd s.draws &&& kk) with draws := s.draws + 1 } rfl rfl
  | _ => exact .advance _ rfl rfl

/-- A skip moves pc by its condition and does nothing else (R129, R143 to R146, R230, R231). -/
theorem exec_of_skip {i : Instr} {s : State} {taken : Bool} (h : pcRule s i = .skip taken) :
    exec i s = .next (s.skipIf taken) := by
  cases i with
  | seImm | seReg | skp | sknp => cases h; rfl
  | sneImm | sneReg => cases h; rw [decide_not]; rfl
  | _ => cases h

/-- The four transfers of R129 that set pc explicitly. -/
theorem pcRule_eq_explicit_iff (s : State) (i : Instr) :
    pcRule s i = .explicit ↔ i = .ret ∨ ∃ nnn, i = .jp nnn ∨ i = .call nnn ∨ i = .jpV0 nnn := by
  cases i <;> simp [pcRule]

/-- The new pc of an instruction that is neither a skip nor an explicit transfer and raised no fault (R129). -/
theorem exec_plain_pc {i : Instr} {s t : State} (h : exec i s = .next t) (hf : t.fault = .none)
    (hr : pcRule s i = .plain) : t.pc = s.pc + 2 := by
  have hans : AdvancesOrMemRange s (.next t) := h ▸ exec_of_plain hr
  cases hans with
  | advance u hpc _ => rw [State.advance_eq, State.setPc_pc, hpc]
  | memRange => cases hf

/-- The new pc of a skip (R129). -/
theorem exec_skip_pc {i : Instr} {s t : State} {taken : Bool} (h : exec i s = .next t)
    (hr : pcRule s i = .skip taken) : t.pc = if taken then s.pc + 4 else s.pc + 2 := by
  cases h.symm.trans (exec_of_skip hr)
  rfl

/-- Settles O11, rule by rule: the plain instructions, the skips taken and not taken, the explicit transfers. -/
theorem pcAdvancesByTwoOrFour : Obligations.PcAdvancesByTwoOrFour := by
  intro i s t _ h hf
  exact ⟨exec_plain_pc h hf, exec_skip_pc h, exec_skip_pc h, pcRule_eq_explicit_iff s i⟩

end Sys2Proof.Machine
end

section
/-! SUPPORT. The decoder as equations (30_encoding.md R92, R94; 40_dispatch.md R122): the handler the lookup answers,
applied to the fields, for the formats XKK and XYF, and the two words of 42_alu.md R160 and R162. -/
namespace Sys2Proof

/-- A word with a handler decodes to the handler applied to the word's fields (R92, R120). -/
theorem decodeWord_of_lookup {w : Word} {o : Opcode} (h : lookup w = some o) :
    decodeWord w = some (o.instr (Fields.ofWord w)) := by
  rw [decodeWord, h, Option.map_some]

@[simp] theorem Fields.ofWord_x (w : Word) : (Fields.ofWord w).x = nibble1 w := rfl
@[simp] theorem Fields.ofWord_y (w : Word) : (Fields.ofWord w).y = nibble2 w := rfl

/-- Format XKK under a root key with one handler (R122): roots 3, 4, 6, 7 and C. -/
theorem decodeWord_xkk {a : Nibble} {o : Opcode} (x : RegIndex) (kk : Byte)
    (ht : dispatchTree.child a = some ⟨[], some ⟨[], some ⟨[], some o⟩⟩⟩) :
    decodeWord (a ++ x ++ kk) = some (o.instr (Fields.ofWord (a ++ x ++ kk))) :=
  decodeWord_of_lookup (lookup_wild (nibble0_xkk a x kk) ht)

/-- Format XYF under a root key that leaves the choice to the last nibble (R122): roots 5, 8 and 9. -/
theorem decodeWord_xyf {a b : Nibble} {n : Node Opcode} {o : Opcode} (x y : RegIndex)
    (ht : dispatchTree.child a = some ⟨[], some ⟨[], some n⟩⟩) (hb : n.child b = some o) :
    decodeWord (a ++ x ++ y ++ b) = some (o.instr (Fields.ofWord (a ++ x ++ y ++ b))) := by
  apply decodeWord_of_lookup
  rw [lookup_last (nibble0_xyn a x y b) ht, nibble3_xyn, hb]

/-- `6xkk` is `LD Vx, byte` (R160). -/
theorem decodeWord_ldImm (x : RegIndex) (kk : Byte) : decodeWord (0x6#4 ++ x ++ kk) = some (.ldImm x kk) := by
  rw [decodeWord_xkk (a := 0x6#4) x kk child_6, Opcode.instr, Fields.ofWord_x, nibble1_xkk, imm8_xkk]

/-- `8xy0` is `LD Vx, Vy` (R162). -/
theorem decodeWord_ldReg (x y : RegIndex) : decodeWord (0x8#4 ++ x ++ y ++ 0x0#4) = some (.ldReg x y) := by
  rw [decodeWord_xyf (a := 0x8#4) (b := 0x0#4) x y child_8 rfl, Opcode.instr, Fields.ofWord_x, Fields.ofWord_y,
    nibble1_xyn, nibble2_xyn]

end Sys2Proof
end

section
/-! SUPPORT. What an instruction that writes one register and advances pc does to the whole state
(42_alu.md R160, R162). -/
namespace Sys2Proof.Machine

/-- Advancing pc leaves every register (R129). -/
@[simp] theorem State.advance_getV (s : State) (j : RegIndex) : s.advance.getV j = s.getV j := rfl

/-- Advancing pc leaves every byte of memory (R129). -/
@[simp] theorem State.advance_readByte (s : State) (a : Nat) : s.advance.readByte a = s.readByte a := rfl

/-- One register written and pc advanced: every register, pc, and the frame. -/
theorem exec_writes_one_register {i : Instr} {s : State} {x : RegIndex} {a : Byte}
    (h : exec i s = .next (s.setV x a).advance) :
    ∃ t, exec i s = .next t ∧ (∀ j, t.getV j = if j = x then a else s.getV j) ∧
      t.pc = s.pc + 2 ∧ t = { s with v := t.v, pc := t.pc } ∧ SameMemory s t := by
  refine ⟨(s.setV x a).advance, h, fun j => ?registers, ?pc, rfl, fun b => ?memory⟩
  case registers => rw [State.advance_getV, State.getV_setV]
  case pc => rw [State.advance_eq, State.setPc_pc, State.setV_pc]
  case memory => rw [State.advance_readByte, State.setV_readByte]

/-- `LD Vx, byte` writes `kk` to Vx and advances pc (R160). -/
theorem exec_ldImm (x : RegIndex) (kk : Byte) (s : State) :
    exec (.ldImm x kk) s = .next (s.setV x kk).advance := rfl

/-- `LD Vx, Vy` writes Vy to Vx and advances pc (R162). -/
theorem exec_ldReg (x y : RegIndex) (s : State) :
    exec (.ldReg x y) s = .next (s.setV x (s.getV y)).advance := rfl

/-- Settles O31: each of the two words decodes to its instruction, which writes one register and advances pc. -/
theorem loadByteAndMove : Obligations.LoadByteAndMove := by
  intro x y kk s
  exact ⟨decodeWord_ldImm x kk, decodeWord_ldReg x y, exec_writes_one_register (exec_ldImm x kk s),
    exec_writes_one_register (exec_ldReg x y s)⟩

end Sys2Proof.Machine
end

section
/-! SUPPORT. The decoder on a word of format NNN (30_encoding.md R92, R94; 40_dispatch.md R122). -/
namespace Sys2Proof

/-- Format NNN under a root key with one handler (R122): roots 1, 2, A and B. -/
theorem decodeWord_nnn {a : Nibble} {o : Opcode} (nnn : Addr)
    (ht : dispatchTree.child a = some ⟨[], some ⟨[], some ⟨[], some o⟩⟩⟩) :
    decodeWord (a ++ nnn) = some (o.instr (Fields.ofWord (a ++ nnn))) :=
  decodeWord_of_lookup (lookup_wild (nibble0_nnn a nnn) ht)

/-- `Annn` is `LD I, addr` (R190). -/
theorem decodeWord_ldI (nnn : Addr) : decodeWord (0xA#4 ++ nnn) = some (.ldI nnn) := by
  rw [decodeWord_nnn (a := 0xA#4) nnn child_A, Opcode.instr, addr12_nnn]

end Sys2Proof
end

section
/-! SUPPORT. What an instruction that writes I and advances pc does to the whole state (43_index_memory.md R190). -/
namespace Sys2Proof.Machine

/-- I written and pc advanced: the new I, pc, and the frame. -/
theorem exec_writes_index {i : Instr} {s : State} {a : Word} (h : exec i s = .next (s.setI a).advance) :
    ∃ t, exec i s = .next t ∧ t.i = a ∧
      t.pc = s.pc + 2 ∧ t = { s with i := t.i, pc := t.pc } ∧ SameMemory s t := by
  refine ⟨(s.setI a).advance, h, ?index, ?pc, rfl, fun b => ?memory⟩
  case index => rw [State.advance_eq, State.setPc_i, State.setI_i]
  case pc => rw [State.advance_eq, State.setPc_pc, State.setI_pc]
  case memory => rw [State.advance_readByte, State.setI_readByte]

/-- A zero-extended address lies in the address space (R8, R60). -/
theorem addr16_toNat_le (a : Addr) : (addr16 a).toNat ≤ 0xFFF := by
  rw [addr16_toNat]
  exact Nat.le_of_lt_succ a.isLt

/-- `LD I, addr` writes `nnn` to I and advances pc (R190). -/
theorem exec_ldI (nnn : Addr) (s : State) : exec (.ldI nnn) s = .next (s.setI (addr16 nnn)).advance := rfl

/-- Settles O38: the word decodes to the instruction, which writes the zero-extended address to I and advances pc. -/
theorem loadIndexSetsI : Obligations.LoadIndexSetsI := by
  intro nnn s
  obtain ⟨t, hexec, hi, hpc, hframe, hmem⟩ := exec_writes_index (exec_ldI nnn s)
  have hbound : t.i.toNat ≤ 0xFFF := hi ▸ addr16_toNat_le nnn
  exact ⟨decodeWord_ldI nnn, t, hexec, hi, hbound, hpc, hframe, hmem⟩

end Sys2Proof.Machine
end

section
/-! SUPPORT. The decoder on a word of format XFF, whose low byte is fixed (30_encoding.md R92, R94; 40_dispatch.md
R122), and the three timer words of 45_keys_timers.md R232, R234 and R235. -/
namespace Sys2Proof

/-- Format XFF under a root key that leaves the choice to the low byte's nibbles (R122): roots E and F. -/
theorem decodeWord_xff {a : Nibble} {n : Node (Node Opcode)} {o : Opcode} (x : RegIndex) (ff : Byte)
    (ht : dispatchTree.child a = some ⟨[], some n⟩)
    (hff : (n.child (ff.extractLsb' 4 4)).bind (fun c => c.child (ff.extractLsb' 0 4)) = some o) :
    decodeWord (a ++ x ++ ff) = some (o.instr (Fields.ofWord (a ++ x ++ ff))) := by
  apply decodeWord_of_lookup
  rw [lookup_lastTwo (nibble0_xkk a x ff) ht, nibble2_xkk, nibble3_xkk, hff]

/-- `Fx07` is `LD Vx, DT` (R232). -/
theorem decodeWord_ldVxDt (x : RegIndex) : decodeWord (0xF#4 ++ x ++ 0x07#8) = some (.ldVxDt x) := by
  rw [decodeWord_xff (a := 0xF#4) (o := .ldVxDt) x 0x07#8 child_F (by decide), Opcode.instr,
    Fields.ofWord_x, nibble1_xkk]

/-- `Fx15` is `LD DT, Vx` (R234). -/
theorem decodeWord_ldDtVx (x : RegIndex) : decodeWord (0xF#4 ++ x ++ 0x15#8) = some (.ldDtVx x) := by
  rw [decodeWord_xff (a := 0xF#4) (o := .ldDtVx) x 0x15#8 child_F (by decide), Opcode.instr,
    Fields.ofWord_x, nibble1_xkk]

/-- `Fx18` is `LD ST, Vx` (R235). -/
theorem decodeWord_ldStVx (x : RegIndex) : decodeWord (0xF#4 ++ x ++ 0x18#8) = some (.ldStVx x) := by
  rw [decodeWord_xff (a := 0xF#4) (o := .ldStVx) x 0x18#8 child_F (by decide), Opcode.instr,
    Fields.ofWord_x, nibble1_xkk]

end Sys2Proof
end

section
/-! SUPPORT. What the three timer moves do to the whole state (45_keys_timers.md R232, R234, R235). -/
namespace Sys2Proof.Machine

/-- Advancing pc adds 2 to it (R129). -/
@[simp] theorem State.advance_pc (s : State) : s.advance.pc = s.pc + 2 := rfl

/-- A state whose memory is that of `s` reads every byte as `s` does, after pc advances too. -/
theorem sameMemory_advance {s u : State} (hmem : u.mem = s.mem) : SameMemory s u.advance := by
  intro a
  rw [State.advance_readByte, State.readByte, hmem, State.readByte]

/-- `LD Vx, DT` writes the delay timer to Vx and advances pc (R232). -/
theorem exec_ldVxDt (x : RegIndex) (s : State) : exec (.ldVxDt x) s = .next (s.setV x s.dt).advance := rfl

/-- `LD DT, Vx` writes Vx to the delay timer and advances pc (R234). -/
theorem exec_ldDtVx (x : RegIndex) (s : State) :
    exec (.ldDtVx x) s = .next { s with dt := s.getV x }.advance := rfl

/-- `LD ST, Vx` writes Vx to the sound timer and advances pc (R235). -/
theorem exec_ldStVx (x : RegIndex) (s : State) :
    exec (.ldStVx x) s = .next { s with st := s.getV x }.advance := rfl

/-- Settles O50: each of the three words decodes to its instruction, which moves one byte and advances pc. -/
theorem timerMoves : Obligations.TimerMoves := by
  intro x s
  refine ⟨decodeWord_ldVxDt x, decodeWord_ldDtVx x, decodeWord_ldStVx x, ?readDelay, ?writeDelay, ?writeSound⟩
  case readDelay => exact exec_writes_one_register (exec_ldVxDt x s)
  case writeDelay => exact ⟨_, exec_ldDtVx x s, rfl, State.advance_pc _, rfl, sameMemory_advance rfl⟩
  case writeSound => exact ⟨_, exec_ldStVx x s, rfl, State.advance_pc _, rfl, sameMemory_advance rfl⟩

end Sys2Proof.Machine
end

section
/-! SUPPORT. What the events KEY_UP and SET_RUN do to the whole state (60_exceptions.md R265, R267). -/
namespace Sys2Proof.Machine

/-- A state whose memory is that of `s` reads every byte as `s` does. -/
theorem sameMemory_of_mem_eq {s t : State} (hmem : t.mem = s.mem) : SameMemory s t := by
  intro a
  rw [State.readByte, hmem, State.readByte]

/-- KEY_UP of a key of the interface clears that entry of `key` (R265). -/
theorem applyEvent_keyUp {k : Nat} (hk : k < 16) (s : State) :
    applyEvent (.keyUp k) s = .next { s with key := s.key.set k false hk } := dif_pos hk

/-- Settles O53: KEY_UP clears one entry of `key`, and reading the keys back shows which one. -/
theorem keyUpReleases : Obligations.KeyUpReleases := by
  intro k s hle
  have hk : k < 16 := Nat.lt_succ_of_le hle
  refine ⟨_, applyEvent_keyUp hk s, fun j => ?keys, rfl, sameMemory_of_mem_eq rfl⟩
  case keys => simp only [Fin.getElem_fin, Vector.getElem_set, eq_comm]

/-- SET_RUN answers the state with `run_state` written (R267). -/
theorem applyEvent_setRun (r : RunState) (s : State) : applyEvent (.setRun r) s = .next (s.hostSetRun r) := rfl

/-- Setting the run state a state already has changes nothing (R267). -/
@[simp] theorem State.hostSetRun_runState (s : State) : s.hostSetRun s.runState = s := rfl

/-- Settles O55: SET_RUN writes `run_state`, and writing the value already there gives the same state. -/
theorem setRunWritesOnlyRunState : Obligations.SetRunWritesOnlyRunState := by
  intro r s
  refine ⟨s.hostSetRun r, applyEvent_setRun r s, rfl, rfl, sameMemory_of_mem_eq rfl, fun hr => ?unchanged⟩
  case unchanged => rw [← hr, State.hostSetRun_runState]

end Sys2Proof.Machine
end

section
/-! SUPPORT. What the event LOAD does to the whole state (70_reset_and_hazards.md R291). -/
namespace Sys2Proof.Machine

/-- LOAD answers the state of `hostLoad`; the boolean result is dropped (R274, R291; log 12). -/
theorem applyEvent_load (bytes : List Byte) (addr : Nat) (s : State) :
    applyEvent (.load bytes addr) s = .next (s.hostLoad bytes addr).1 := rfl

/-- The result of a load is success exactly when the string fits (R291). -/
theorem hostLoad_success_iff (s : State) (bytes : List Byte) (addr : Nat) :
    (s.hostLoad bytes addr).2 = true ↔ bytes.length + addr ≤ memSize := by
  by_cases hfit : bytes.length + addr ≤ memSize
  · simp only [hostLoad_fits s hfit, hfit]
  · simp only [hostLoad_rejected s (Nat.lt_of_not_le hfit), hfit, Bool.false_eq_true]

section
variable {s : State} {a : Nat} {bytes : List Byte} (h : a + bytes.length ≤ memSize) (hm : s.mem.wf = true)
include h hm

/-- Byte `j` of a string written inside the address space stands at `a + j` (R63). -/
theorem State.readByte_writeBytes_inside {j : Nat} (hj : j < bytes.length) :
    (s.writeBytes a bytes).readByte (a + j) = bytes[j] := by
  rw [State.readByte_writeBytes h hm, if_pos (by omega), Nat.add_sub_cancel_left, List.getD_eq_getElem?_getD,
    List.getElem?_eq_getElem hj, Option.getD_some]

/-- A block write leaves every byte outside it (R63). -/
theorem State.readByte_writeBytes_outside {b : Nat} (hb : b < a ∨ a + bytes.length ≤ b) :
    (s.writeBytes a bytes).readByte b = s.readByte b := by
  rw [State.readByte_writeBytes h hm, if_neg (by omega)]

end

/-- Settles O57: a string that fits is the block write of the whole string, one that does not leaves the state. -/
theorem loadIsAllOrNothing : Obligations.LoadIsAllOrNothing := by
  intro bytes addr s
  refine ⟨hostLoad_success_iff s bytes addr, fun hfit => ?fits, fun hover => ?rejected⟩
  case fits =>
    have hrange : addr + bytes.length ≤ memSize := Nat.add_comm addr _ ▸ hfit
    refine ⟨s.writeBytes addr bytes, ?written, rfl, fun hm => ⟨fun j hj => ?inside, fun a ha => ?outside⟩⟩
    case written => rw [applyEvent_load, hostLoad_fits s hfit]
    case inside => exact State.readByte_writeBytes_inside hrange hm hj
    case outside => exact State.readByte_writeBytes_outside hrange hm ha
  case rejected => rw [applyEvent_load, hostLoad_rejected s hover]

end Sys2Proof.Machine
end

section
/-! SUPPORT. The dispatch tree as the list of its paths (40_dispatch.md R121 to R124): when no node has two children for
one nibble, the lookup answers a handler exactly when the word matches the pattern of a path to it. -/
namespace Sys2Proof

/-! ### One node -/

/-- The children of a node with their keys. -/
def Node.entries {α : Type} (n : Node α) : List (Key × α) :=
  n.exact.map (fun e => (.exact e.1, e.2)) ++ n.wild.toList.map fun c => (.any, c)

/-- No nibble has two children: the exact keys are distinct, and no wildcard stands beside an exact key. -/
def Node.exclusive {α : Type} (n : Node α) : Bool :=
  decide (n.exact.map (·.1)).Nodup && (n.exact.isEmpty || n.wild.isNone)

/-- Among distinct keys, the child found under a key is the one that stands there. -/
theorem lookup_eq_some_iff_mem {α : Type} {l : List (Nibble × α)} (hl : (l.map (·.1)).Nodup) (v : Nibble) (c : α) :
    l.lookup v = some c ↔ (v, c) ∈ l := by
  induction l with
  | nil => simp
  | cons e l ih =>
    obtain ⟨u, d⟩ := e
    rw [List.map_cons, List.nodup_cons] at hl
    obtain ⟨hu, hl⟩ := hl
    by_cases hv : v = u
    · subst hv
      have hnot : (v, c) ∉ l := fun hmem => hu (List.mem_map.2 ⟨_, hmem, rfl⟩)
      simp [hnot, eq_comm]
    · simp [List.lookup_cons, beq_eq_false_iff_ne.2 hv, hv, ih hl]

/-- The entries of a node: its exact children, and the child under the wildcard. -/
theorem Node.mem_entries {α : Type} {n : Node α} {k : Key} {c : α} :
    (k, c) ∈ n.entries ↔ (∃ u, (u, c) ∈ n.exact ∧ k = .exact u) ∨ (n.wild = some c ∧ k = .any) := by
  simp only [Node.entries, List.mem_append, List.mem_map, Option.mem_toList, Prod.mk.injEq, Prod.exists]
  constructor
  · rintro (⟨u, _, hmem, rfl, rfl⟩ | ⟨_, hwild, rfl, rfl⟩)
    · exact .inl ⟨u, hmem, rfl⟩
    · exact .inr ⟨hwild, rfl⟩
  · rintro (⟨u, hmem, rfl⟩ | ⟨hwild, rfl⟩)
    · exact .inl ⟨u, c, hmem, rfl, rfl⟩
    · exact .inr ⟨c, hwild, rfl, rfl⟩

/-- A nibble without an exact child has the child under the wildcard, and an exact child comes first (R123). -/
theorem Node.child_eq_some_iff_or {α : Type} (n : Node α) (v : Nibble) (c : α) :
    n.child v = some c ↔ n.exact.lookup v = some c ∨ (n.exact.lookup v = none ∧ n.wild = some c) := by
  unfold Node.child
  cases n.exact.lookup v with
  | none => exact ⟨fun h => .inr ⟨rfl, h⟩, fun h => h.elim nofun And.right⟩
  | some d => exact ⟨.inl, fun h => h.elim id nofun⟩

/-- In a node where no nibble has two children, the child of a nibble is the entry whose key it matches (R123). -/
theorem Node.child_eq_some_iff {α : Type} {n : Node α} (hn : n.exclusive = true) (v : Nibble) (c : α) :
    n.child v = some c ↔ ∃ k, (k, c) ∈ n.entries ∧ v &&& k.mask = k.fixed := by
  simp only [Node.exclusive, Bool.and_eq_true, decide_eq_true_eq, Bool.or_eq_true, List.isEmpty_iff,
    Option.isNone_iff_eq_none] at hn
  obtain ⟨hkeys, hone⟩ := hn
  rw [Node.child_eq_some_iff_or, lookup_eq_some_iff_mem hkeys]
  constructor
  · rintro (hexact | ⟨-, hwild⟩)
    · exact ⟨.exact v, Node.mem_entries.2 (.inl ⟨v, hexact, rfl⟩), (nibble_matches_exact v v).2 rfl⟩
    · exact ⟨.any, Node.mem_entries.2 (.inr ⟨hwild, rfl⟩), (nibble_matches_any v).2 trivial⟩
  · rintro ⟨k, hmem, hmatch⟩
    obtain ⟨u, hexact, rfl⟩ | ⟨hwild, rfl⟩ := Node.mem_entries.1 hmem
    · rw [nibble_matches_exact] at hmatch
      exact .inl (hmatch ▸ hexact)
    · obtain hexact | hnone := hone
      · exact .inr ⟨by rw [hexact]; rfl, hwild⟩
      · exact absurd (hnone.symm.trans hwild) nofun

/-! ### The whole tree -/

/-- Every path of the tree: its four keys and the handler it ends in. -/
def DispatchTree.paths (t : DispatchTree) : List (Pattern × Opcode) :=
  t.entries.flatMap fun a => a.2.entries.flatMap fun b => b.2.entries.flatMap fun c =>
    c.2.entries.map fun d => (⟨a.1, b.1, c.1, d.1⟩, d.2)

/-- No node of the tree has two children for one nibble. -/
def DispatchTree.exclusive (t : DispatchTree) : Bool :=
  Node.exclusive t && t.entries.all fun a => a.2.exclusive && a.2.entries.all fun b => b.2.exclusive &&
    b.2.entries.all fun c => c.2.exclusive

/-- The lookup goes down one level a nibble (R123). -/
theorem lookup_eq_bind (w : Word) :
    lookup w = (dispatchTree.child (nibble0 w)).bind fun a => (a.child (nibble1 w)).bind fun b =>
      (b.child (nibble2 w)).bind fun c => c.child (nibble3 w) := by
  unfold lookup
  cases dispatchTree.child (nibble0 w) with
  | none => rfl
  | some a =>
    simp only [Option.bind_some]
    cases a.child (nibble1 w) with
    | none => rfl
    | some b =>
      simp only [Option.bind_some]
      cases b.child (nibble2 w) <;> rfl

theorem dispatchTree_exclusive : dispatchTree.exclusive = true := by decide

/-- The lookup answers a handler exactly when the word matches the pattern of a path to it. -/
theorem lookup_eq_some_iff_path (w : Word) (o : Opcode) :
    lookup w = some o ↔ ∃ p, (p, o) ∈ dispatchTree.paths ∧ p.matches w = true := by
  have hex := dispatchTree_exclusive
  simp only [DispatchTree.exclusive, Bool.and_eq_true, List.all_eq_true] at hex
  obtain ⟨h0, hex⟩ := hex
  simp only [lookup_eq_bind, Option.bind_eq_some_iff, DispatchTree.paths, List.mem_flatMap, List.mem_map, matches_iff]
  constructor
  · rintro ⟨a, ha, b, hb, c, hc, hd⟩
    obtain ⟨k0, ha, m0⟩ := (Node.child_eq_some_iff h0 _ _).1 ha
    obtain ⟨h1, hex⟩ := hex _ ha
    obtain ⟨k1, hb, m1⟩ := (Node.child_eq_some_iff h1 _ _).1 hb
    obtain ⟨h2, hex⟩ := hex _ hb
    obtain ⟨k2, hc, m2⟩ := (Node.child_eq_some_iff h2 _ _).1 hc
    obtain ⟨k3, hd, m3⟩ := (Node.child_eq_some_iff (hex _ hc) _ _).1 hd
    exact ⟨⟨k0, k1, k2, k3⟩, ⟨_, ha, _, hb, _, hc, _, hd, rfl⟩, m0, m1, m2, m3⟩
  · rintro ⟨_, ⟨⟨k0, a⟩, ha, ⟨k1, b⟩, hb, ⟨k2, c⟩, hc, ⟨k3, d⟩, hd, heq⟩, m0, m1, m2, m3⟩
    obtain ⟨rfl, rfl⟩ := Prod.mk.inj heq
    obtain ⟨h1, hex⟩ := hex _ ha
    obtain ⟨h2, hex⟩ := hex _ hb
    exact ⟨a, (Node.child_eq_some_iff h0 _ _).2 ⟨k0, ha, m0⟩, b, (Node.child_eq_some_iff h1 _ _).2 ⟨k1, hb, m1⟩,
      c, (Node.child_eq_some_iff h2 _ _).2 ⟨k2, hc, m2⟩, (Node.child_eq_some_iff (hex _ hc) _ _).2 ⟨k3, hd, m3⟩⟩

/-- Every handler is registered (R94). -/
theorem Opcode.mem_all (o : Opcode) : o ∈ Opcode.all := by cases o <;> decide

/-- Every path of the tree carries the pattern its handler is registered under (R122). -/
theorem paths_sound : ∀ e ∈ dispatchTree.paths, e.1 = e.2.pattern := by decide

/-- Every registered handler stands at the end of its pattern's path (R122). -/
theorem paths_complete : ∀ o ∈ Opcode.all, (o.pattern, o) ∈ dispatchTree.paths := by decide

/-- The lookup answers the handler whose pattern the word matches (R94, R123). -/
theorem lookup_eq_some_iff (w : Word) (o : Opcode) : lookup w = some o ↔ o.pattern.matches w = true := by
  rw [lookup_eq_some_iff_path]
  constructor
  · rintro ⟨p, hp, hm⟩
    have hpat : p = o.pattern := paths_sound _ hp
    exact hpat ▸ hm
  · exact fun hm => ⟨o.pattern, paths_complete o o.mem_all, hm⟩

/-- Settles O19: the scan answers a handler whose pattern matches, and the tree answers that same handler. -/
theorem treeAgreesWithFlatTable : Obligations.TreeAgreesWithFlatTable := by
  intro w
  cases hflat : lookupFlat w with
  | some o =>
    rw [lookupFlat] at hflat
    exact (lookup_eq_some_iff w o).2 (List.find?_some (p := fun o : Opcode => o.pattern.matches w) hflat)
  | none =>
    refine Option.eq_none_iff_forall_ne_some.2 fun o ho => ?_
    have hnone : ¬o.pattern.matches w = true := List.find?_eq_none.1 hflat o o.mem_all
    exact hnone ((lookup_eq_some_iff w o).1 ho)

/-- Settles O20: matching the pattern is what the lookup answers for; the two extreme words match it. -/
theorem everyMatchingWordResolvesToItsHandler : Obligations.EveryMatchingWordResolvesToItsHandler := by
  have key (o : Opcode) (w : Word) (h : w &&& o.pattern.mask = o.pattern.matchBits) : lookup w = some o :=
    (lookup_eq_some_iff w o).2 (beq_iff_eq.2 h)
  refine ⟨key, fun o => ⟨key o _ ?minimal, key o _ ?maximal⟩⟩
  case minimal => cases o <;> decide
  case maximal => cases o <;> decide

end Sys2Proof
end

section
/-! SUPPORT. Encoder and decoder against each other (30_encoding.md R92 to R97): an instruction's word matches its
handler's pattern and holds its operands, and a word that matches a pattern is the word of the handler's instruction. -/
namespace Sys2Proof

@[simp] theorem Fields.ofWord_small4 (w : Word) : (Fields.ofWord w).small4 = nibble3 w := rfl

/-! ### Decoding what was encoded -/

open Laws.EncodeMatches in
/-- The word of every instruction matches its handler's pattern (R94). -/
theorem encode_matches (i : Instr) : Statement i :=
  Instr.casesOn i cls ret low high jp call seImm sneImm seReg ldImm addImm ldReg orReg andReg xorReg addReg sub shr
    subn shl sneReg ldI jpV0 rnd drw skp sknp ldVxDt ldVxK ldDtVx ldStVx addI ldF ldB storeRegs loadRegs

/-- The fields of an instruction's word are its operands (R92). -/
theorem opcode_instr_encode (i : Instr) : i.opcode.instr (Fields.ofWord (encode i)) = i := by
  cases i with
  | cls | ret | low | high => rfl
  | jp | call | ldI | jpV0 => simp only [Instr.opcode, Opcode.instr, encode, addr12_nnn]
  | seImm | sneImm | ldImm | addImm | rnd =>
    simp only [Instr.opcode, Opcode.instr, encode, Fields.ofWord_x, nibble1_xkk, imm8_xkk]
  | skp | sknp | ldVxDt | ldVxK | ldDtVx | ldStVx | addI | ldF | ldB | storeRegs | loadRegs =>
    simp only [Instr.opcode, Opcode.instr, encode, Fields.ofWord_x, nibble1_xkk]
  | drw =>
    simp only [Instr.opcode, Opcode.instr, encode, Fields.ofWord_x, Fields.ofWord_y, Fields.ofWord_small4,
      nibble1_xyn, nibble2_xyn, nibble3_xyn]
  | _ =>
    simp only [Instr.opcode, Opcode.instr, encode, Fields.ofWord_x, Fields.ofWord_y, nibble1_xyn, nibble2_xyn]

/-- Decoding the word of an instruction gives the instruction (R92, R94). -/
theorem decodeWord_encode (i : Instr) : decodeWord (encode i) = some i := by
  have hlookup : lookup (encode i) = some i.opcode := (lookup_eq_some_iff _ _).2 (beq_iff_eq.2 (encode_matches i))
  rw [decodeWord_of_lookup hlookup, opcode_instr_encode]

/-- The two bytes of a word put together, the high one first (R62). -/
theorem wordBytes_append (w : Word) : (w.extractLsb' 8 8 ++ w.extractLsb' 0 8 : Word) = w := by
  have h : (w.extractLsb' 8 8 ++ w.extractLsb' 0 8 : Word) = w.extractLsb' 0 16 :=
    BitVec.extractLsb'_append_extractLsb'_eq_extractLsb' rfl
  rw [h, BitVec.extractLsb'_eq_self]

/-- Settles O17: on words by the pattern and the fields, on bytes because the two bytes are the word. -/
theorem decodeOfEncode : Obligations.DecodeOfEncode := by
  refine fun i _ => ⟨decodeWord_encode i, fun rest => ?bytes⟩
  case bytes =>
    simp only [encodeBytes, wordBytes, List.cons_append, List.nil_append, decodeBytes, wordBytes_append,
      decodeWord_encode]

/-! ### Encoding what was decoded -/

section
variable {a b c d : Nibble} {w : Word}

/-- A word is its first nibble and its address field (R92, format NNN). -/
theorem nnn_eq_word (h0 : nibble0 w = a) : (a ++ (Fields.ofWord w).addr12 : Word) = w := by
  have h : (nibble0 w ++ (Fields.ofWord w).addr12 : Word) = w.extractLsb' 0 16 :=
    BitVec.extractLsb'_append_extractLsb'_eq_extractLsb' rfl
  rw [← h0, h, BitVec.extractLsb'_eq_self]

/-- A word is its first two nibbles and its low byte (R92, format XKK). -/
theorem xkk_eq_word (h0 : nibble0 w = a) : a ++ nibble1 w ++ (Fields.ofWord w).imm8 = w := by
  have h : nibble0 w ++ nibble1 w = w.extractLsb' 8 8 := BitVec.extractLsb'_append_extractLsb'_eq_extractLsb' rfl
  rw [← h0, h]
  exact wordBytes_append w

/-- The low byte of a word is its last two nibbles (R92). -/
theorem lowByte_eq (h2 : nibble2 w = c) (h3 : nibble3 w = d) : w.extractLsb' 0 8 = (c ++ d : Byte) := by
  rw [← h2, ← h3]
  exact (BitVec.extractLsb'_append_extractLsb'_eq_extractLsb' (start₁ := 0) (len₁ := 4) (len₂ := 4) rfl).symm

/-- A word is its first two nibbles and a fixed low byte (R92, format XFF). -/
theorem xff_eq_word (h0 : nibble0 w = a) (h2 : nibble2 w = c) (h3 : nibble3 w = d) :
    a ++ nibble1 w ++ (c ++ d : Byte) = w := by
  rw [← lowByte_eq h2 h3]
  exact xkk_eq_word h0

/-- A word is its four nibbles, the first fixed (R92, format XYN). -/
theorem xyn_eq_word (h0 : nibble0 w = a) : a ++ nibble1 w ++ nibble2 w ++ nibble3 w = w := by
  rw [← h0]
  exact (word_eq_nibbles w).symm

/-- A word is its four nibbles, the first and the last fixed (R92, format XYF). -/
theorem xyf_eq_word (h0 : nibble0 w = a) (h3 : nibble3 w = d) : a ++ nibble1 w ++ nibble2 w ++ d = w := by
  rw [← h3]
  exact xyn_eq_word h0

/-- A word is its four nibbles, all fixed (R92). -/
theorem fixed_eq_word (h0 : nibble0 w = a) (h1 : nibble1 w = b) (h2 : nibble2 w = c) (h3 : nibble3 w = d) :
    a ++ b ++ c ++ d = w := by
  rw [← h1, ← h2]
  exact xyf_eq_word h0 h3

end

/-- A word that matches a handler's pattern is the word of the handler's instruction on its fields (R94, R96). -/
theorem encode_opcode_instr {o : Opcode} {w : Word} (h : o.pattern.matches w = true) :
    encode (o.instr (Fields.ofWord w)) = w := by
  rw [matches_iff] at h
  cases o
  all_goals
    simp only [Opcode.pattern, nibble_matches_exact, nibble_matches_any, true_and, and_true] at h
  case cls | ret | low | high =>
    obtain ⟨h0, h1, h2, h3⟩ := h
    exact fixed_eq_word h0 h1 h2 h3
  case jp | call | ldI | jpV0 => exact nnn_eq_word h
  case seImm | sneImm | ldImm | addImm | rnd => exact xkk_eq_word h
  case drw => exact xyn_eq_word h
  case skp | sknp | ldVxDt | ldVxK | ldDtVx | ldStVx | addI | ldF | ldB | storeRegs | loadRegs =>
    obtain ⟨h0, h2, h3⟩ := h
    exact xff_eq_word h0 h2 h3
  all_goals
    obtain ⟨h0, h3⟩ := h
    exact xyf_eq_word h0 h3

/-- Settles O18: the handler found has a pattern the word matches, which fixes what the fields leave open. -/
theorem encodeOfDecode : Obligations.EncodeOfDecode := by
  intro w i h
  obtain ⟨o, ho, rfl⟩ := Option.map_eq_some_iff.1 h
  exact encode_opcode_instr ((lookup_eq_some_iff w o).1 ho)

/-- Settles O22: each word is the encoding of its instruction. -/
theorem exampleWordsDecode : Obligations.ExampleWordsDecode :=
  ⟨decodeWord_encode .cls, decodeWord_encode (.jp 0x204), decodeWord_encode (.call 0x300),
    decodeWord_encode (.addReg 0 1), decodeWord_encode (.shr 0xA 0), decodeWord_encode (.jpV0 0x123),
    decodeWord_encode (.drw 0 1 5), decodeWord_encode (.loadRegs 2), decodeWord_encode (.ldB 0),
    decodeWord_encode (.skp 1)⟩

end Sys2Proof
end

section
/-! SUPPORT. The words without a handler, root key by root key (30_encoding.md R95). -/
namespace Sys2Proof

section
variable {w : Word}

/-- Of the words whose first nibble is 0, the four fixed ones alone have a handler (R95). -/
theorem lookup_eq_none_iff_root0 (h0 : nibble0 w = 0x0) :
    lookup w = none ↔ w ≠ 0x00E0 ∧ w ≠ 0x00EE ∧ w ≠ 0x00FE ∧ w ≠ 0x00FF := by
  constructor
  · intro hnone
    refine ⟨?_, ?_, ?_, ?_⟩ <;> rintro rfl <;> revert hnone <;> decide
  · rintro ⟨hcls, hret, hlow, hhigh⟩
    refine Option.eq_none_iff_forall_ne_some.2 fun o ho => ?_
    have hm := (lookup_eq_some_iff w o).1 ho
    have hw := (encode_opcode_instr hm).symm
    cases o with
    | cls => exact hcls hw
    | ret => exact hret hw
    | low => exact hlow hw
    | high => exact hhigh hw
    | _ =>
      simp only [matches_iff, Opcode.pattern, nibble_matches_exact, h0] at hm
      exact absurd hm.1 (by decide)

/-- Where the last nibble decides, the words left out are those of its node (R122). -/
theorem lookup_eq_none_iff_last {a : Nibble} {n : Node Opcode} {P : Nibble → Prop} (h0 : nibble0 w = a)
    (ht : dispatchTree.child a = some ⟨[], some ⟨[], some n⟩⟩) (hn : ∀ d, n.child d = none ↔ P d) :
    lookup w = none ↔ P (nibble3 w) := by
  rw [lookup_last h0 ht, hn]

/-- Where the low byte decides, the words left out are those of its two levels (R122). -/
theorem lookup_eq_none_iff_lowByte {a : Nibble} {n : Node (Node Opcode)} {P : Byte → Prop} (h0 : nibble0 w = a)
    (ht : dispatchTree.child a = some ⟨[], some n⟩)
    (hn : ∀ c d : Nibble, (n.child c).bind (fun m => m.child d) = none ↔ P (c ++ d : Byte)) :
    lookup w = none ↔ P (w.extractLsb' 0 8) := by
  rw [lookup_lastTwo h0 ht, hn, lowByte_eq rfl rfl]

/-- Root key 5 asks for a last nibble 0 (R95). -/
theorem lookup_eq_none_iff_root5 (h0 : nibble0 w = 0x5) : lookup w = none ↔ nibble3 w ≠ 0x0 :=
  lookup_eq_none_iff_last (P := (· ≠ 0x0)) h0 child_5 (by decide)

/-- Root key 8 leaves seven last nibbles out (R95). -/
theorem lookup_eq_none_iff_root8 (h0 : nibble0 w = 0x8) :
    lookup w = none ↔ nibble3 w ∈ [0x8, 0x9, 0xA, 0xB, 0xC, 0xD, 0xF] :=
  lookup_eq_none_iff_last (P := (· ∈ [0x8, 0x9, 0xA, 0xB, 0xC, 0xD, 0xF])) h0 child_8 (by decide)

/-- Root key 9 asks for a last nibble 0 (R95). -/
theorem lookup_eq_none_iff_root9 (h0 : nibble0 w = 0x9) : lookup w = none ↔ nibble3 w ≠ 0x0 :=
  lookup_eq_none_iff_last (P := (· ≠ 0x0)) h0 child_9 (by decide)

/-- Root key E asks for one of two low bytes (R95). -/
theorem lookup_eq_none_iff_rootE (h0 : nibble0 w = 0xE) :
    lookup w = none ↔ w.extractLsb' 0 8 ∉ [0x9E, 0xA1] :=
  lookup_eq_none_iff_lowByte (P := (· ∉ [0x9E, 0xA1])) h0 child_E (by decide)

/-- Root key F asks for one of nine low bytes (R95). -/
theorem lookup_eq_none_iff_rootF (h0 : nibble0 w = 0xF) :
    lookup w = none ↔ w.extractLsb' 0 8 ∉ [0x07, 0x0A, 0x15, 0x18, 0x1E, 0x29, 0x33, 0x55, 0x65] :=
  lookup_eq_none_iff_lowByte (P := (· ∉ [0x07, 0x0A, 0x15, 0x18, 0x1E, 0x29, 0x33, 0x55, 0x65])) h0 child_F
    (by decide)

/-- The root keys that lead to one handler whatever the other nibbles are (R122). -/
def oneHandlerRoots : List Nibble := [0x1, 0x2, 0x3, 0x4, 0x6, 0x7, 0xA, 0xB, 0xC, 0xD]

/-- Under such a root key every word has a handler (R122). -/
theorem lookup_ne_none_of_oneHandlerRoot (h0 : nibble0 w ∈ oneHandlerRoots) : lookup w ≠ none := by
  have hroot : ∀ a ∈ oneHandlerRoots, ∃ o ∈ Opcode.all,
      dispatchTree.child a = some ⟨[], some ⟨[], some ⟨[], some o⟩⟩⟩ := by decide
  obtain ⟨o, -, ho⟩ := hroot _ h0
  simp [lookup_wild rfl ho]

end

/-- The root keys: the six that leave words out, and the ten that do not (R122). -/
theorem root_cases : ∀ a : Nibble,
    a = 0x0 ∨ a = 0x5 ∨ a = 0x8 ∨ a = 0x9 ∨ a = 0xE ∨ a = 0xF ∨ a ∈ oneHandlerRoots := by decide

/-- Settles O21: under each of six root keys one set of the table is left out, under the ten others nothing is. -/
theorem illegalWordsAreTheSixSets : Obligations.IllegalWordsAreTheSixSets := by
  intro w
  rw [decodeWord, Option.map_eq_none_iff]
  rcases root_cases (nibble0 w) with h | h | h | h | h | h | h
  · simp [h, lookup_eq_none_iff_root0 h]
  · simp [h, lookup_eq_none_iff_root5 h]
  · simp [h, lookup_eq_none_iff_root8 h]
  · simp [h, lookup_eq_none_iff_root9 h]
  · simp [h, lookup_eq_none_iff_rootE h]
  · simp [h, lookup_eq_none_iff_rootF h]
  · have hroots : ∀ a ∈ oneHandlerRoots, a ≠ 0x0 ∧ a ≠ 0x5 ∧ a ≠ 0x8 ∧ a ≠ 0x9 ∧ a ≠ 0xE ∧ a ≠ 0xF := by decide
    obtain ⟨h0, h5, h8, h9, hE, hF⟩ := hroots _ h
    simp only [lookup_ne_none_of_oneHandlerRoot h, h0, h5, h8, h9, hE, hF, false_and, or_self]

end Sys2Proof
end

section
/-! SUPPORT. The disassembly query and its text (40_dispatch.md R130, R131; 30_encoding.md R97). -/
namespace Sys2Proof.Machine

/-- The addresses the query admits (R130, U10). -/
theorem disasmAddrOk_iff (a : Nat) : disasmAddrOk a = true ↔ a % 2 = 0 ∧ a ≤ 0xFFE := by
  simp [disasmAddrOk]

/-- The query at an address it admits (R130). -/
theorem disasm_of_ok {a : Nat} (s : State) (heven : a % 2 = 0) (hle : a ≤ 0xFFE) :
    disasm s a = .ok ((decodeWord (s.readWord a)).map disasmText) :=
  if_pos ((disasmAddrOk_iff a).2 ⟨heven, hle⟩)

/-- The query anywhere else (R130, U10). -/
theorem disasm_refused {a : Nat} (s : State) (h : a % 2 = 1 ∨ 0xFFE < a) : disasm s a = .error (.disasmAddress a) :=
  if_neg (by rw [disasmAddrOk_iff]; omega)

/-- The text of every instruction is the printed form of R97. -/
theorem disasmChars_eq_shownText (i : Instr) : disasmChars i = shownText i := by
  cases i <;>
    simp [disasmChars, shownText, shownOperands, shownMnemonic, commaText, regText_eq, byteText_eq, addrText_eq,
      nibbleText_eq, List.intercalate_cons_cons]

/-- A list stands in the joined text of the lists it is one of. -/
theorem isInfix_intercalate_of_mem {α : Type} {sep op : List α} {ops : List (List α)} (h : op ∈ ops) :
    op <:+: sep.intercalate ops := by
  induction ops with
  | nil => cases h
  | cons op₁ rest ih =>
    cases rest with
    | nil => simp_all
    | cons op₂ rest =>
      rw [List.intercalate_cons_cons]
      rcases List.mem_cons.1 h with rfl | h
      · exact ⟨[], sep ++ sep.intercalate (op₂ :: rest), by simp⟩
      · exact (ih h).trans (List.suffix_append _ _).isInfix

/-- Every operand stands in the printed form (R97). -/
theorem operand_isInfix_shownText {i : Instr} {op : List Char} (h : op ∈ shownOperands i) : op <:+: shownText i := by
  unfold shownText
  split
  · simp_all
  · exact (isInfix_intercalate_of_mem h).trans (List.suffix_append _ _).isInfix

/-- The text of an instruction, as characters, is its printed form (R97). -/
theorem disasmText_toList (i : Instr) : (disasmText i).toList = shownText i := by
  rw [disasmText, String.toList_ofList, disasmChars_eq_shownText]

/-- Settles O23, clause by clause: the two bytes read, text, no handler, refusal, printed form, operands. -/
theorem disassemblyReadsTwoBytes : Obligations.DisassemblyReadsTwoBytes := by
  refine ⟨fun s t a hhigh hlow => ?bytes, fun s i a heven hle hw => ?text, fun s a heven hle hmiss => ?noHandler,
    fun s a h => disasm_refused s h, disasmText_toList, fun i op h => ?operand⟩
  case bytes => simp only [disasm, State.readWord, hhigh, hlow]
  case text => rw [disasm_of_ok s heven hle, hw, decodeWord_encode, Option.map_some]
  case noHandler => rw [disasm_of_ok s heven hle, hmiss, Option.map_none]
  case operand =>
    rw [disasmText_toList]
    exact operand_isInfix_shownText h

end Sys2Proof.Machine
end

section
/-! SUPPORT. What an instruction can do, said once for all 36: it completes, writing only what the "written by" column
of 10_state.md R20 names for it, or it takes one of the three precise faults (60_exceptions.md R253, R254, R257). -/
namespace Sys2Proof.Machine

/-! ### The four instructions that access memory at I -/

/-- An access whose last byte is beyond 0xFFF: MemRange with I and nothing else (R65, R257). -/
theorem exec_of_rangeOk_false {i : Instr} {n : Nat} {s : State} (hn : accessCount i = some n)
    (h : rangeOk s.i n = false) : exec i s = .next (s.raise .memRange s.i) := by
  cases i with
  | drw | ldB | storeRegs | loadRegs =>
    cases hn
    exact if_neg (Bool.not_eq_true _ ▸ h)
  | _ => cases hn

/-- `DRW` with the sprite inside memory (R213). -/
theorem exec_drw_of_rangeOk (x y : RegIndex) {n : Nibble} {s : State} (h : rangeOk s.i n.toNat = true) :
    exec (.drw x y n) s =
      .next ({ s with fb := (drawSprite s (s.getV x).toNat (s.getV y).toNat n.toNat).fb }.setV vf
        (flagByte (drawSprite s (s.getV x).toNat (s.getV y).toNat n.toNat).coll)).advance := if_pos h

/-- `LD B, Vx` with the three digits inside memory (R193). -/
theorem exec_ldB_of_rangeOk (x : RegIndex) {s : State} (h : rangeOk s.i 3 = true) :
    exec (.ldB x) s = .next (s.writeBytes s.i.toNat (bcdDigits (s.getV x))).advance := if_pos h

/-- `LD [I], Vx` with the block inside memory (R194). -/
theorem exec_storeRegs_of_rangeOk {x : RegIndex} {s : State} (h : rangeOk s.i (blockCount x) = true) :
    exec (.storeRegs x) s = .next (s.writeBytes s.i.toNat (blockRegs s x)).advance := if_pos h

/-- `LD Vx, [I]` with the block inside memory (R195). -/
theorem exec_loadRegs_of_rangeOk {x : RegIndex} {s : State} (h : rangeOk s.i (blockCount x) = true) :
    exec (.loadRegs x) s = .next { s with v := loadBlock s x }.advance := if_pos h

/-! ### Completion and fault -/

/-- What an instruction that completes leaves as it was: each piece of state but pc, unless R20 names the instruction
among its writers, and each register that the instruction's rule does not let it write. -/
structure Completes (i : Instr) (s t : State) : Prop where
  mem : (∀ x, i ≠ .ldB x ∧ i ≠ .storeRegs x) → t.mem = s.mem
  v : ∀ j, ¬mayWriteV i j → t.getV j = s.getV j
  index : (∀ x nnn, i ≠ .ldI nnn ∧ i ≠ .addI x ∧ i ≠ .ldF x) → t.i = s.i
  stack : (∀ nnn, i ≠ .call nnn) → t.stack = s.stack
  sp : (∀ nnn, i ≠ .call nnn ∧ i ≠ .ret) → t.sp = s.sp
  dt : (∀ x, i ≠ .ldDtVx x) → t.dt = s.dt
  st : (∀ x, i ≠ .ldStVx x) → t.st = s.st
  fb : (∀ x y n, i ≠ .cls ∧ i ≠ .low ∧ i ≠ .high ∧ i ≠ .drw x y n) → t.fb = s.fb
  mode : i ≠ .low ∧ i ≠ .high → t.mode = s.mode
  key : t.key = s.key
  wait : (∀ x, i ≠ .ldVxK x) → t.waitKey = s.waitKey ∧ t.waitReg = s.waitReg
  runState : t.runState = s.runState
  fault : t.fault = s.fault
  faultInfo : t.faultInfo = s.faultInfo
  config : t.config = s.config
  draws : (∀ x kk, i ≠ .rnd x kk) → t.draws = s.draws
  schedule : t.schedule = s.schedule

namespace Completes
variable {i : Instr} {s u : State}

/-- To change nothing is to complete. -/
theorem refl : Completes i s s where
  mem _ := rfl
  v _ _ := rfl
  index _ := rfl
  stack _ := rfl
  sp _ := rfl
  dt _ := rfl
  st _ := rfl
  fb _ := rfl
  mode _ := rfl
  key := rfl
  wait _ := ⟨rfl, rfl⟩
  runState := rfl
  fault := rfl
  faultInfo := rfl
  config := rfl
  draws _ := rfl
  schedule := rfl

/-- Every instruction may write pc (R20). -/
theorem setPc (h : Completes i s u) (a : Word) : Completes i s (u.setPc a) :=
  { h with mem := h.mem }

/-- Every instruction may advance pc (R129). -/
theorem advance (h : Completes i s u) : Completes i s u.advance := h.setPc _

/-- An instruction may write a register of its own. -/
theorem setV {x : RegIndex} (h : Completes i s u) (hx : mayWriteV i x) (a : Byte) : Completes i s (u.setV x a) := by
  refine { h with v := fun j hj => ?registers }
  case registers =>
    have hne : j ≠ x := fun heq => hj (heq ▸ hx)
    rw [State.getV_setV, if_neg hne, h.v j hj]

/-- An instruction that sets a flag may write its destination and VF (R23). -/
theorem setVThenFlag {x : RegIndex} (h : Completes i s u) (hx : mayWriteV i x) (hf : mayWriteV i vf) (a : Byte)
    (flag : Bool) : Completes i s (u.setVThenFlag x a flag) := (h.setV hx a).setV hf _

end Completes

/-- Instruction `i` takes a fault of its own in `s`: the fault and its information (R253, R254, R257). -/
inductive OwnFault (s : State) : Instr → FaultCode → Word → Prop
  | stackOverflow (nnn : Addr) (hsp : s.sp.val = 16) : OwnFault s (.call nnn) .stackOverflow s.pc
  | stackUnderflow (hsp : s.sp.val = 0) : OwnFault s .ret .stackUnderflow s.pc
  | memRange {i : Instr} {n : Nat} (hn : accessCount i = some n) (hpos : 0 < n) (hlast : 0xFFF < s.i.toNat + n - 1) :
    OwnFault s i .memRange s.i

/-- What `exec` may answer: a completed instruction, or the state with a precise fault raised in it (R258). -/
inductive ExecOutcome (i : Instr) (s : State) : Result → Prop
  | completes {t : State} (h : Completes i s t) : ExecOutcome i s (.next t)
  | faults {f : FaultCode} {info : Word} (h : OwnFault s i f info) : ExecOutcome i s (.next (s.raise f info))

/-- An instruction that accesses memory at I takes MemRange or completes as it does inside the range (R65). -/
theorem ExecOutcome.of_access {i : Instr} {n : Nat} {s t : State} (hn : accessCount i = some n)
    (hexec : rangeOk s.i n = true → exec i s = .next t) (h : Completes i s t) : ExecOutcome i s (exec i s) := by
  cases hok : rangeOk s.i n with
  | true => exact hexec hok ▸ .completes h
  | false =>
    obtain ⟨hpos, hlast⟩ := (rangeOk_false_iff s.i n).1 hok
    exact exec_of_rangeOk_false hn hok ▸ .faults (.memRange hn hpos hlast)

/-- Every instruction completes or takes a precise fault; none stops the machine (R20, R258). -/
theorem exec_outcome (i : Instr) (s : State) : ExecOutcome i s (exec i s) := by
  have hrefl : Completes i s s := .refl
  cases i with
  | jp | jpV0 | seImm | sneImm | seReg | sneReg | skp | sknp => exact .completes (hrefl.setPc _)
  | ldImm | addImm | ldReg | orReg | andReg | xorReg | ldVxDt => exact .completes (hrefl.setV rfl _).advance
  | addReg | sub | shr | subn | shl =>
    exact .completes (hrefl.setVThenFlag (.inl rfl) (.inr rfl) _ _).advance
  | rnd => exact .completes { (hrefl.setV rfl _).advance with draws := by simp }
  | cls => exact .completes { hrefl.advance with fb := by simp }
  | low | high => exact .completes { hrefl.advance with fb := by simp, mode := by simp }
  | ldI | addI | ldF => exact .completes { hrefl.advance with index := by simp }
  | ldVxK => exact .completes { hrefl.advance with wait := by simp }
  | ldDtVx => exact .completes { hrefl.advance with dt := by simp }
  | ldStVx => exact .completes { hrefl.advance with st := by simp }
  | drw x y n =>
    have hfb (fb : Framebuffer) : Completes (.drw x y n) s { s with fb := fb } := { hrefl with fb := by simp }
    exact .of_access rfl (exec_drw_of_rangeOk x y) ((hfb _).setV rfl _).advance
  | ldB x => exact .of_access rfl (exec_ldB_of_rangeOk x) { hrefl.advance with mem := by simp }
  | storeRegs => exact .of_access rfl exec_storeRegs_of_rangeOk { hrefl.advance with mem := by simp }
  | loadRegs x =>
    refine .of_access rfl exec_loadRegs_of_rangeOk { hrefl.advance with v := fun j hj => ?registers }
    case registers => exact (loadBlock_getV s x j).trans (if_neg hj)
  | ret =>
    obtain ⟨hsp, hexec⟩ | ⟨hsp, hexec⟩ := exec_ret_cases s
    · exact hexec ▸ .faults (.stackUnderflow hsp)
    · exact hexec ▸ .completes { hrefl with sp := by simp }
  | call nnn =>
    obtain ⟨hsp, hexec⟩ | ⟨hsp, hexec⟩ := exec_call_cases nnn s
    · exact hexec ▸ .faults (.stackOverflow nnn hsp)
    · exact hexec ▸ .completes { hrefl with stack := by simp, sp := by simp }

/-- The two outcomes of an instruction that answers a next state. -/
theorem exec_next {i : Instr} {s t : State} (h : exec i s = .next t) :
    Completes i s t ∨ ∃ f info, OwnFault s i f info ∧ t = s.raise f info := by
  have hout : ExecOutcome i s (.next t) := h ▸ exec_outcome i s
  cases hout with
  | completes hc => exact .inl hc
  | faults hf => exact .inr ⟨_, _, hf, rfl⟩

/-- `exec` always answers a next state: no instruction stops the machine. -/
theorem exec_total (i : Instr) (s : State) : ∃ t, exec i s = .next t := by
  have hout := exec_outcome i s
  generalize exec i s = r at hout ⊢
  cases hout with
  | completes => exact ⟨_, rfl⟩
  | faults => exact ⟨_, rfl⟩

/-- A fault of an instruction's own is a fault. -/
theorem OwnFault.ne_none {s : State} {i : Instr} {f : FaultCode} {info : Word} (h : OwnFault s i f info) :
    f ≠ .none := by
  cases h <;> simp

/-! ### What follows from the outcome alone -/

/-- Settles O9: an instruction that completes keeps the fault register, so the state is a precise fault's. -/
theorem preciseFaultsChangeNothingElse : Obligations.PreciseFaultsChangeNothingElse := by
  intro i s t hs h hf
  obtain hc | ⟨f, info, hown, rfl⟩ := exec_next h
  · exact absurd (hc.fault.trans hs) hf
  · refine ⟨rfl, ?_⟩
    cases hown with
    | stackOverflow nnn hsp => exact .inl ⟨nnn, rfl, hsp, rfl, rfl⟩
    | stackUnderflow hsp => exact .inr (.inl ⟨rfl, hsp, rfl, rfl⟩)
    | memRange hn hpos hlast => exact .inr (.inr ⟨_, hn, hpos, hlast, rfl, rfl⟩)

/-- Settles O12: the frame of a completed instruction, and of a fault, which writes the fault registers alone. -/
theorem eachPieceHasOnlyItsWriters : Obligations.EachPieceHasOnlyItsWriters := by
  intro i s t h
  obtain hc | ⟨f, info, hown, rfl⟩ := exec_next h
  · exact ⟨fun hi => ⟨sameMemory_of_mem_eq (hc.mem hi), hc.mem hi⟩, hc.index, hc.stack, hc.sp, hc.dt, hc.st, hc.fb,
      hc.mode, hc.key, hc.wait, .inl ⟨hc.runState, hc.fault, hc.faultInfo⟩, hc.config, hc.schedule, hc.draws⟩
  · have hr : Completes i s s := .refl
    exact ⟨fun hi => ⟨sameMemory_of_mem_eq rfl, hr.mem hi⟩, hr.index, hr.stack, hr.sp, hr.dt, hr.st, hr.fb, hr.mode,
      hr.key, hr.wait, .inr ⟨rfl, hown.ne_none, rfl⟩, hr.config, hr.schedule, hr.draws⟩

/-- Settles O13: a completed instruction writes its own registers, and a fault writes none. -/
theorem eachRegisterHasOnlyItsWriters : Obligations.EachRegisterHasOnlyItsWriters := by
  intro i s t j h hj
  obtain hc | ⟨f, info, -, rfl⟩ := exec_next h
  · exact hc.v j hj
  · rw [State.raise_getV]

/-- Settles O45: the range check comes first, whatever the instruction. -/
theorem memRangeIsCheckedFirst : Obligations.MemRangeIsCheckedFirst := by
  intro i n s hn hpos hlast
  exact exec_of_rangeOk_false hn ((rangeOk_false_iff s.i n).2 ⟨hpos, hlast⟩)

end Sys2Proof.Machine
end

section
/-! SUPPORT. The step as equations (40_dispatch.md R126, R127; 60_exceptions.md R268): the core's turn at an
instruction, a disabled core, an event at the head of the schedule. -/
namespace Sys2Proof.Machine

/-- A step at an instruction: the instruction, and then the check of the new pc (R126). -/
theorem step_of_atInstr {s : State} {i : Instr} (h : AtInstr s i) : step s = settlePc (exec i s) := by
  obtain ⟨henabled, hturn, ⟨heven, hle⟩, hdecodes⟩ := h
  rw [step_eq_coreTurn hturn, coreTurn_eq_cycle henabled, cycle, fetch_eq hle heven]
  simp only [hdecodes]

/-- A step at an instruction that raised no fault of its own (R126). -/
theorem step_of_exec {s t : State} {i : Instr} (h : AtInstr s i) (hexec : exec i s = .next t) (hf : t.fault = .none) :
    step s = .next t.checkPc := by
  rw [step_of_atInstr h, hexec, settlePc, if_pos hf]

/-- An enabled core has no fault recorded (R127). -/
theorem AtInstr.fault_eq_none {s : State} {i : Instr} (h : AtInstr s i) : s.fault = .none :=
  ((enabled_iff s).1 h.enabled).2.1

/-- A new pc above 0xFFE is PcOutOfRange (R255). -/
theorem checkPc_of_gt {s : State} (h : pcMax < s.pc.toNat) : s.checkPc = s.raise .pcOutOfRange s.pc := if_pos h

/-- An odd new pc up to 0xFFE is PcMisaligned (R256). -/
theorem checkPc_of_odd {s : State} (hle : s.pc.toNat ≤ pcMax) (hodd : s.pc.toNat % 2 = 1) :
    s.checkPc = s.raise .pcMisaligned s.pc := by
  rw [State.checkPc, if_neg (Nat.not_lt.2 hle), if_pos hodd]

/-- The check of the new pc keeps pc. -/
@[simp] theorem checkPc_pc (s : State) : s.checkPc.pc = s.pc := by
  rcases checkPc_cases s with ⟨-, h⟩ | ⟨-, -, h⟩ | ⟨-, -, h⟩ <;> simp [h]

/-- A disabled core's turn changes nothing (R127). -/
theorem coreTurn_of_disabled {s : State} (h : s.enabled = false) : coreTurn s = .next s :=
  if_neg (by simp [h])

/-- An event at the head of the schedule is applied (R268). -/
theorem step_of_event {s : State} {e : HostEvent} {rest : List Turn} (h : s.schedule = .event e :: rest) :
    step s = applyEvent e { s with schedule := rest } := by
  rw [step, takeTurn, h]

/-- Settles O4: the step at an instruction, and the core's turn taken off the schedule or the schedule empty. -/
theorem stepRunsDecodedInstruction : Obligations.StepRunsDecodedInstruction := by
  refine ⟨fun s i h _ => ?instruction, fun s rest => rfl, fun s => step_eq_coreTurn⟩
  case instruction =>
    rw [step_of_atInstr h]
    cases exec i s <;> rfl

/-- Settles O5: the three cases of the check. -/
theorem newPcIsChecked : Obligations.NewPcIsChecked := by
  intro s t i h hexec hf
  rw [step_of_exec h hexec hf]
  refine ⟨fun hgt => ?range, fun hle hodd => ?odd, fun hle heven => ?legal⟩
  case range => rw [checkPc_of_gt hgt]; rfl
  case odd => rw [checkPc_of_odd hle hodd]; rfl
  case legal => rw [checkPc_legal hle heven]

end Sys2Proof.Machine
end

section
/-! SUPPORT. What an event of the host can do, said once (60_exceptions.md R263 to R267, 70_reset_and_hazards.md R290 to
R292). -/
namespace Sys2Proof.Machine

/-- KEY_DOWN of a key of the interface presses it and completes a pending wait (R264). -/
theorem applyEvent_keyDown {k : Nat} (hk : k < 16) (s : State) :
    applyEvent (.keyDown k) s = .next ({ s with key := s.key.set k true hk }.completeWait k) := dif_pos hk

/-- KEY_DOWN with an index above 15 is refused (R264, U11). -/
theorem applyEvent_keyDown_refused {k : Nat} (hk : 16 ≤ k) (s : State) :
    applyEvent (.keyDown k) s = .refused (.keyIndexOutOfRange k) := dif_neg (Nat.not_lt.2 hk)

/-- KEY_UP with an index above 15 is refused (R265, U11). -/
theorem applyEvent_keyUp_refused {k : Nat} (hk : 16 ≤ k) (s : State) :
    applyEvent (.keyUp k) s = .refused (.keyIndexOutOfRange k) := dif_neg (Nat.not_lt.2 hk)

/-- After the completing half of KEY_DOWN no wait is pending, and nothing but the registers changed (R264). -/
theorem completeWait_frame (s : State) (k : Nat) :
    s.completeWait k = { s with v := (s.completeWait k).v, waitKey := false } := by
  unfold State.completeWait
  split
  · rfl
  · have hwait : s.waitKey = false := by simpa using ‹¬s.waitKey = true›
    rw [← hwait]

/-- The next state of an event, event by event. -/
inductive EventOutcome (s : State) : HostEvent → State → Prop
  | reset : EventOutcome s .reset s.hostReset
  | load (bytes : List Byte) (addr : Nat) : EventOutcome s (.load bytes addr) (s.hostLoad bytes addr).1
  | loadRom (bytes : List Byte) (addr : Nat) : EventOutcome s (.loadRom bytes addr) (s.hostReset.hostLoad bytes addr).1
  | setRun (r : RunState) : EventOutcome s (.setRun r) (s.hostSetRun r)
  | keyDown {k : Nat} (hk : k < 16) :
    EventOutcome s (.keyDown k) ({ s with key := s.key.set k true hk }.completeWait k)
  | keyUp {k : Nat} (hk : k < 16) : EventOutcome s (.keyUp k) { s with key := s.key.set k false hk }
  | timerTick : EventOutcome s .timerTick s.hostTimerTick

/-- Everything an event that answers a next state can have done. -/
theorem applyEvent_next {e : HostEvent} {s t : State} (h : applyEvent e s = .next t) : EventOutcome s e t := by
  cases e with
  | reset => cases h; exact .reset
  | load bytes addr => cases h; exact .load bytes addr
  | loadRom bytes addr => cases h; exact .loadRom bytes addr
  | setRun r => cases h; exact .setRun r
  | timerTick => cases h; exact .timerTick
  | keyDown k =>
    rcases Nat.lt_or_ge k 16 with hk | hk
    · cases (applyEvent_keyDown hk s).symm.trans h; exact .keyDown hk
    · cases (applyEvent_keyDown_refused hk s).symm.trans h
  | keyUp k =>
    rcases Nat.lt_or_ge k 16 with hk | hk
    · cases (applyEvent_keyUp hk s).symm.trans h; exact .keyUp hk
    · cases (applyEvent_keyUp_refused hk s).symm.trans h

/-- An event answers a next state, or names a key index above 15 and is refused (U11). -/
theorem applyEvent_total (e : HostEvent) (s : State) :
    (∃ t, applyEvent e s = .next t) ∨
    (∃ k, 16 ≤ k ∧ (e = .keyDown k ∨ e = .keyUp k) ∧ applyEvent e s = .refused (.keyIndexOutOfRange k)) := by
  cases e with
  | keyDown k =>
    rcases Nat.lt_or_ge k 16 with hk | hk
    · exact .inl ⟨_, applyEvent_keyDown hk s⟩
    · exact .inr ⟨k, hk, .inl rfl, applyEvent_keyDown_refused hk s⟩
  | keyUp k =>
    rcases Nat.lt_or_ge k 16 with hk | hk
    · exact .inl ⟨_, applyEvent_keyUp hk s⟩
    · exact .inr ⟨k, hk, .inr rfl, applyEvent_keyUp_refused hk s⟩
  | _ => exact .inl ⟨_, rfl⟩

/-- The two events that reset the core: RESET, and LOAD_ROM, whose first half it is (R290, R292). -/
def HostEvent.resets : HostEvent → Bool
  | .reset | .loadRom _ _ => true
  | .load _ _ | .setRun _ | .keyDown _ | .keyUp _ | .timerTick => false

/-- The resetting events by name. -/
theorem HostEvent.resets_iff (e : HostEvent) :
    e.resets = true ↔ e = .reset ∨ ∃ bytes addr, e = .loadRom bytes addr := by
  cases e <;> simp [HostEvent.resets]

/-- A resetting event clears the fault and puts pc to 0x200 (R260, R290). -/
theorem EventOutcome.fault_of_resets {s t : State} {e : HostEvent} (h : EventOutcome s e t) (he : e.resets = true) :
    t.fault = .none ∧ t.faultInfo = 0x0000 ∧ t.pc = 0x0200 := by
  cases h with
  | reset => exact ⟨rfl, rfl, rfl⟩
  | loadRom bytes addr => rw [hostLoad_frame]; exact ⟨rfl, rfl, rfl⟩
  | _ => cases he

/-- Any other event keeps the fault, its information and pc (R260). -/
theorem EventOutcome.fault_of_not_resets {s t : State} {e : HostEvent} (h : EventOutcome s e t)
    (he : e.resets = false) : t.fault = s.fault ∧ t.faultInfo = s.faultInfo ∧ t.pc = s.pc := by
  cases h with
  | reset | loadRom => cases he
  | load bytes addr => rw [hostLoad_frame]; exact ⟨rfl, rfl, rfl⟩
  | keyDown => rw [completeWait_frame]; exact ⟨rfl, rfl, rfl⟩
  | setRun | keyUp | timerTick => exact ⟨rfl, rfl, rfl⟩

/-- An event that neither resets nor presses a key keeps a pending wait and its register (R264). -/
theorem EventOutcome.wait_of_not_keyDown {s t : State} {e : HostEvent} (h : EventOutcome s e t)
    (he : e.resets = false) (hk : ∀ k, e ≠ .keyDown k) : t.waitKey = s.waitKey ∧ t.waitReg = s.waitReg := by
  cases h with
  | reset | loadRom => cases he
  | keyDown => exact absurd rfl (hk _)
  | load bytes addr => rw [hostLoad_frame]; exact ⟨rfl, rfl⟩
  | setRun | keyUp | timerTick => exact ⟨rfl, rfl⟩

/-- A turn of the core does not end a wait (R127). -/
theorem coreTurn_keeps_wait {s t : State} (h : coreTurn s = .next t) (hw : s.waitKey = true) : t.waitKey = true := by
  obtain ⟨-, rfl⟩ | ⟨henabled, -⟩ := coreTurn_next h
  · exact hw
  · exact absurd hw (by simp [((enabled_iff s).1 henabled).2.2])

/-- A step that ends a wait applied a KEY_DOWN or a resetting event (R127, R264). -/
theorem step_ends_wait {s t : State} (hw : s.waitKey = true) (h : step s = .next t) (ht : t.waitKey = false) :
    ∃ e rest, s.schedule = .event e :: rest ∧ (e.resets = true ∨ ∃ k, e = .keyDown k) := by
  obtain ⟨e, rest, hs, hevent⟩ | ⟨rest, -, hcore⟩ := step_next h
  · refine ⟨e, rest, hs, ?_⟩
    refine Classical.byContradiction fun hnot => ?_
    obtain ⟨hreset, hkey⟩ := not_or.1 hnot
    have hkeep := (applyEvent_next hevent).wait_of_not_keyDown (by simpa using hreset) (by simpa using hkey)
    exact absurd (hkeep.1.trans hw) (by simp [ht])
  · exact absurd (coreTurn_keeps_wait hcore hw) (by simp [ht])

/-- Settles O7: when a cycle is enabled, what a disabled turn and an event do, and what ends a wait. -/
theorem cycleIsEnabledExactly : Obligations.CycleIsEnabledExactly := by
  refine ⟨enabled_iff, fun s hs hoff => ?disabled, fun s hs hrun hfault hwait => ?enabled,
    fun s e rest => step_of_event, fun s t hw h ht => ?wait⟩
  case disabled =>
    rw [step_eq_coreTurn hs]
    refine coreTurn_of_disabled (Bool.eq_false_iff.2 fun henabled => ?_)
    obtain ⟨hrun, hfault, hwait⟩ := (enabled_iff s).1 henabled
    simp_all
  case enabled => rw [step_eq_coreTurn hs, coreTurn_eq_cycle ((enabled_iff s).2 ⟨hrun, hfault, hwait⟩)]
  case wait =>
    obtain ⟨e, rest, hs, he⟩ := step_ends_wait hw h ht
    rw [HostEvent.resets_iff] at he
    obtain (rfl | ⟨bytes, addr, rfl⟩) | ⟨k, rfl⟩ := he
    · exact ⟨rest, .inr (.inl hs)⟩
    · exact ⟨rest, .inr (.inr ⟨bytes, addr, hs⟩)⟩
    · exact ⟨rest, .inl ⟨k, hs⟩⟩

/-- A turn of the core changes nothing while a fault is recorded (R127). -/
theorem coreTurn_of_fault {s t : State} (hf : s.fault ≠ .none) (h : coreTurn s = .next t) : t = s := by
  obtain ⟨-, rfl⟩ | ⟨henabled, -⟩ := coreTurn_next h
  · rfl
  · exact absurd ((enabled_iff s).1 henabled).2.1 hf

/-- Settles O8: a turn of the core changes nothing, and an event clears the fault exactly when it resets. -/
theorem faultIsStickyUntilReset : Obligations.FaultIsStickyUntilReset := by
  intro s t hf h
  obtain ⟨e, rest, hs, hevent⟩ | ⟨rest, hs, hcore⟩ := step_next h
  · have hout := applyEvent_next hevent
    cases hreset : e.resets with
    | true =>
      refine ⟨fun hno => ?_, fun _ => hout.fault_of_resets hreset⟩
      obtain rfl | ⟨bytes, addr, rfl⟩ := e.resets_iff.1 hreset
      · exact absurd hs (hno rest).1
      · exact absurd hs ((hno rest).2 bytes addr)
    | false =>
      refine ⟨fun _ => hout.fault_of_not_resets hreset, ?_⟩
      rintro ⟨rest', hs' | ⟨bytes, addr, hs'⟩⟩ <;> cases hs.symm.trans hs' <;> cases hreset
  · have ht : t = { s with schedule := rest } := coreTurn_of_fault (s := { s with schedule := rest }) hf hcore
    subst ht
    refine ⟨fun _ => ⟨rfl, rfl, rfl⟩, ?_⟩
    rintro ⟨rest', hs' | ⟨bytes, addr, hs'⟩⟩ <;> simp [hs'] at hs

end Sys2Proof.Machine
end

section
/-! SUPPORT. The invariant of 10_state.md R38 under each operation of a step: events, instructions, fault entry and the
check of the new pc. -/
namespace Sys2Proof.Machine

/-! ### The invariant and single updates -/

/-- The canonical memory may be any other canonical one. -/
theorem StateInv.withMem {s : State} (h : StateInv s) {m : Memory} (hm : m.wf = true) :
    StateInv { s with mem := m } :=
  { h with memWf := hm }

/-- The invariant does not speak of the schedule (log 1). -/
theorem StateInv.withSchedule {s : State} (h : StateInv s) (rest : List Turn) :
    StateInv { s with schedule := rest } :=
  { h with faultOk := h.faultOk }

/-- With no fault recorded pc is legal and fault_info is 0 (R38 (a), R251). -/
theorem StateInv.faultOk_none {s : State} (h : StateInv s) (hf : s.fault = .none) :
    pcLegal s.pc ∧ s.faultInfo = 0x0000 := by
  have hok := h.faultOk
  rwa [FaultInfoOk, hf] at hok

/-- A state after RESET meets the invariant when its parameters are admitted (R38, R39, R192). -/
theorem stateInv_hostReset {s : State} (hc : s.config.wf = true) : StateInv s.hostReset where
  memWf := rfl
  faultOk := by
    change pcLegal resetPc ∧ (0x0000 : Word) = 0x0000
    exact ⟨⟨by decide, by decide⟩, rfl⟩
  offScreenDark := fun _ px py _ => pixel_dark px py
  liveStack := fun j hj => absurd hj (Nat.not_lt_zero j.val)
  configWf := hc

/-- Settles O2: the reset state is the RESET of itself, and the default FONT_BASE is admitted. -/
theorem resetMeetsInvariant : Obligations.ResetMeetsInvariant :=
  stateInv_hostReset (s := State.reset) (by decide)

/-- A load keeps the invariant (R291). -/
theorem StateInv.hostLoad {s : State} (h : StateInv s) (bytes : List Byte) (addr : Nat) :
    StateInv (s.hostLoad bytes addr).1 := by
  rcases Nat.lt_or_ge memSize (bytes.length + addr) with hover | hfit
  · rw [hostLoad_rejected s hover]; exact h
  · rw [hostLoad_fits s hfit]
    exact h.withMem (writeBytes_wf (Nat.add_comm addr _ ▸ hfit) h.memWf)

/-- Every event of the host keeps the invariant (R263). -/
theorem EventOutcome.keeps_inv {s t : State} {e : HostEvent} (hout : EventOutcome s e t) (h : StateInv s) :
    StateInv t := by
  cases hout with
  | reset => exact stateInv_hostReset h.configWf
  | load bytes addr => exact h.hostLoad bytes addr
  | loadRom bytes addr => exact (stateInv_hostReset h.configWf).hostLoad bytes addr
  | keyDown => rw [completeWait_frame]; exact { h with faultOk := h.faultOk }
  | setRun | keyUp | timerTick => exact { h with faultOk := h.faultOk }

/-! ### Instructions -/

/-- An access of at least one byte that passes the range check ends inside memory (R65). -/
theorem add_le_memSize_of_rangeOk {base : Word} {n : Nat} (h : rangeOk base n = true) (hpos : 0 < n) :
    base.toNat + n ≤ memSize := by
  rcases (rangeOk_iff base n).1 h with h0 | hle
  · omega
  · simp only [memSize]; omega

/-- At most 16 bytes are accessed at I (R65). -/
theorem accessCount_le {i : Instr} {n : Nat} (h : accessCount i = some n) : n ≤ 16 := by
  cases i with
  | drw | ldB | storeRegs | loadRegs => cases h; omega
  | _ => cases h

/-- Every instruction keeps the memory's canonical form. -/
theorem Completes.keeps_memWf {i : Instr} {s t : State} (hc : Completes i s t) (h : exec i s = .next t)
    (hm : s.mem.wf = true) : t.mem.wf = true := by
  cases i with
  | ldB x =>
    cases hok : rangeOk s.i 3 with
    | true =>
      cases (exec_ldB_of_rangeOk x hok).symm.trans h
      exact writeBytes_wf (add_le_memSize_of_rangeOk hok (Nat.succ_pos _)) hm
    | false =>
      cases (exec_of_rangeOk_false (i := .ldB x) rfl hok).symm.trans h
      exact hm
  | storeRegs x =>
    cases hok : rangeOk s.i (blockCount x) with
    | true =>
      cases (exec_storeRegs_of_rangeOk hok).symm.trans h
      have hfits := add_le_memSize_of_rangeOk hok (Nat.succ_pos _)
      exact writeBytes_wf (by rwa [blockRegs_length]) hm
    | false =>
      cases (exec_of_rangeOk_false (i := .storeRegs x) rfl hok).symm.trans h
      exact hm
  | _ => exact hc.mem (by simp) ▸ hm

/-- In standard mode the buffer outside 64 by 32 is dark (R38 (c)). -/
def OffScreenDark (s : State) : Prop :=
  s.mode = .standard → ∀ px py, 64 ≤ px ∨ 32 ≤ py → s.pixel px py = false

/-- Every instruction keeps the buffer dark outside the standard screen (R38 (c)). -/
theorem Completes.keeps_offScreenDark {i : Instr} {s t : State} (hc : Completes i s t) (h : exec i s = .next t)
    (hd : OffScreenDark s) : OffScreenDark t := by
  cases i with
  | cls | low | high => cases h; exact fun _ px py _ => pixel_dark px py
  | drw x y n =>
    cases hok : rangeOk s.i n.toNat with
    | true =>
      cases (exec_drw_of_rangeOk x y hok).symm.trans h
      intro (hmode : s.mode = .standard) px py hp
      have hsame := drawSprite_outside s (s.getV x).toNat (s.getV y).toNat n.toNat (qx := px) (qy := py)
        (by rw [hmode]; exact hp)
      exact hsame.trans (hd hmode px py hp)
    | false =>
      cases (exec_of_rangeOk_false (i := .drw x y n) rfl hok).symm.trans h
      exact hd
  | _ =>
    have hfb : t.fb = s.fb := hc.fb (by simp)
    have hmode : t.mode = s.mode := hc.mode (by simp)
    simpa only [OffScreenDark, State.pixel, hfb, hmode] using hd

/-- Every live stack entry is even and at most 0x1000 (R38 (e)). -/
def LiveStackOk (s : State) : Prop :=
  ∀ j : Fin 16, j.val < s.sp.val → s.stack[j].toNat % 2 = 0 ∧ s.stack[j].toNat ≤ 0x1000

/-- The address after a legal pc is even and at most 0x1000 (R26, R142). -/
theorem pcLegal.next_toNat {pc : Word} (h : pcLegal pc) : (pc + 2).toNat % 2 = 0 ∧ (pc + 2).toNat ≤ 0x1000 := by
  obtain ⟨heven, hle⟩ := h
  rw [BitVec.toNat_add]
  change (pc.toNat + 2) % 65536 % 2 = 0 ∧ (pc.toNat + 2) % 65536 ≤ 0x1000
  simp only [pcMax] at hle
  omega

/-- Every instruction at a legal pc keeps the live stack entries (R38 (e)). -/
theorem Completes.keeps_liveStack {i : Instr} {s t : State} (hc : Completes i s t) (h : exec i s = .next t)
    (hpc : pcLegal s.pc) (hl : LiveStackOk s) : LiveStackOk t := by
  cases i with
  | ret =>
    obtain ⟨-, hexec⟩ | ⟨hsp, hexec⟩ := exec_ret_cases s
    · cases hexec.symm.trans h; exact hl
    · cases hexec.symm.trans h
      exact fun j hj => hl j (Nat.lt_of_lt_of_le hj (Nat.sub_le _ _))
  | call nnn =>
    obtain ⟨-, hexec⟩ | ⟨hsp, hexec⟩ := exec_call_cases nnn s
    · cases hexec.symm.trans h; exact hl
    · cases hexec.symm.trans h
      intro j (hj : j.val < s.sp.val + 1)
      simp only [Fin.getElem_fin, Vector.getElem_set]
      split
      · exact hpc.next_toNat
      · exact hl j (by omega)
  | _ =>
    have hstack : t.stack = s.stack := hc.stack (by simp)
    have hsp : t.sp = s.sp := hc.sp (by simp)
    simpa only [LiveStackOk, hstack, hsp] using hl

/-! ### Faults -/

/-- Fault entry keeps the invariant when the fault recorded fits what it leaves (R251, R259). -/
theorem StateInv.raise {s : State} (h : StateInv s) {f : FaultCode} {info : Word}
    (hok : FaultInfoOk (s.raise f info)) : StateInv (s.raise f info) :=
  { h with faultOk := hok }

/-- A precise fault leaves what R251 says of it. -/
theorem OwnFault.faultInfoOk {s : State} {i : Instr} {f : FaultCode} {info : Word} (h : OwnFault s i f info)
    (hpc : pcLegal s.pc) : FaultInfoOk (s.raise f info) := by
  cases h with
  | stackOverflow nnn hsp => exact ⟨hpc, rfl, hsp⟩
  | stackUnderflow hsp => exact ⟨hpc, rfl, hsp⟩
  | memRange hn hpos hlast =>
    have hle := accessCount_le hn
    have hbeyond : 0xFFF < s.i.toNat + 15 := by omega
    exact ⟨hpc, rfl, hbeyond⟩

/-- The check of the new pc establishes the invariant in a state without a fault that meets the rest of it
(R38 (a), R255, R256). -/
theorem stateInv_checkPc {s : State} (hm : s.mem.wf = true) (hd : OffScreenDark s) (hl : LiveStackOk s)
    (hc : s.config.wf = true) (hf : s.fault = .none) (hinfo : s.faultInfo = 0x0000) : StateInv s.checkPc := by
  have raised (f : FaultCode) (hok : FaultInfoOk (s.raise f s.pc)) : StateInv (s.raise f s.pc) := ⟨hm, hok, hd, hl, hc⟩
  obtain ⟨hgt, hcheck⟩ | ⟨hle, hodd, hcheck⟩ | ⟨hle, heven, hcheck⟩ := checkPc_cases s
  · exact hcheck ▸ raised .pcOutOfRange ⟨rfl, hgt⟩
  · exact hcheck ▸ raised .pcMisaligned ⟨rfl, hle, hodd⟩
  · have hok : FaultInfoOk s := by
      rw [FaultInfoOk, hf]
      exact ⟨⟨heven, hle⟩, hinfo⟩
    exact hcheck.symm ▸ ⟨hm, hok, hd, hl, hc⟩

/-! ### The step -/

/-- A cycle of an enabled core keeps the invariant (R38). -/
theorem cycle_keeps_inv {s s' : State} (h : StateInv s) (hf : s.fault = .none) (hcycle : cycle s = .next s') :
    StateInv s' := by
  obtain ⟨hpc, hinfo⟩ := h.faultOk_none hf
  obtain ⟨-, -, ⟨hmiss, rfl⟩ | ⟨i, t, -, hexec, rfl⟩⟩ := cycle_next hcycle
  · exact h.raise ⟨hpc, hmiss⟩
  · obtain hc | ⟨f, info, hown, rfl⟩ := exec_next hexec
    · have htf : t.fault = .none := hc.fault.trans hf
      rw [if_pos htf]
      exact stateInv_checkPc (hc.keeps_memWf hexec h.memWf) (hc.keeps_offScreenDark hexec h.offScreenDark)
        (hc.keeps_liveStack hexec hpc h.liveStack) (hc.config ▸ h.configWf) htf (hc.faultInfo.trans hinfo)
    · rw [State.raise_fault, if_neg hown.ne_none]
      exact h.raise (hown.faultInfoOk hpc)

/-- Settles O3: an event keeps the invariant, a disabled turn changes nothing, and a cycle keeps it. -/
theorem everyStepKeepsInvariant : Obligations.EveryStepKeepsInvariant := by
  intro s s' h hstep
  obtain ⟨e, rest, -, hevent⟩ | ⟨rest, -, hcore⟩ := step_next hstep
  · exact (applyEvent_next hevent).keeps_inv (h.withSchedule rest)
  · obtain ⟨-, rfl⟩ | ⟨henabled, hcycle⟩ := coreTurn_next hcore
    · exact h.withSchedule rest
    · exact cycle_keeps_inv (h.withSchedule rest) ((enabled_iff _).1 henabled).2.1 hcycle

/-- A cycle at a legal pc answers a next state, whatever the word there (R126, R128). -/
theorem cycle_total {s : State} (hpc : pcLegal s.pc) : ∃ t, cycle s = .next t := by
  cases hdecode : decodeWord (s.readWord s.pc.toNat) with
  | none => exact ⟨_, cycle_eq_raise_decodeMiss hpc hdecode⟩
  | some i =>
    obtain ⟨t, hexec⟩ := exec_total i s
    obtain ⟨heven, hle⟩ := hpc
    refine ⟨if t.fault = .none then t.checkPc else t, ?_⟩
    rw [cycle, fetch_eq hle heven]
    simp only [hdecode, hexec, settlePc]

/-- The core's turn answers a next state from every state of the invariant (R127). -/
theorem coreTurn_total {s : State} (h : StateInv s) : ∃ t, coreTurn s = .next t := by
  cases henabled : s.enabled with
  | false => exact ⟨s, coreTurn_of_disabled henabled⟩
  | true =>
    rw [coreTurn_eq_cycle henabled]
    exact cycle_total (h.faultOk_none ((enabled_iff s).1 henabled).2.1).1

/-- Settles O10: the core's turn answers a next state, and an event does unless its key index is refused. -/
theorem stepStopsOnlyOutsideTheInterface : Obligations.StepStopsOnlyOutsideTheInterface := by
  intro s h
  cases hs : s.schedule with
  | nil =>
    rw [step_eq_coreTurn hs]
    exact .inl (coreTurn_total h)
  | cons turn rest =>
    cases turn with
    | core =>
      have hstep : step s = coreTurn { s with schedule := rest } := by rw [step, takeTurn, hs]
      rw [hstep]
      exact .inl (coreTurn_total (h.withSchedule rest))
    | event e =>
      rw [step_of_event hs]
      obtain hnext | ⟨k, hk, he, href⟩ := applyEvent_total e { s with schedule := rest }
      · exact .inl hnext
      · refine .inr ⟨k, rest, hk, ?_, href⟩
        rcases he with rfl | rfl
        · exact .inl rfl
        · exact .inr rfl

end Sys2Proof.Machine
end

section
/-! SUPPORT. What the events RESET, LOAD_ROM, KEY_DOWN and TIMER_TICK do to the whole state (60_exceptions.md R264,
R266; 70_reset_and_hazards.md R290, R292, R294). -/
namespace Sys2Proof.Machine

/-! ### Reset values -/

/-- Every register is 0 after reset (R39). -/
theorem reset_getV (j : RegIndex) : State.reset.getV j = 0x00 := Vector.getElem_replicate j.isLt

/-- Every stack entry is 0 after reset (R39). -/
theorem reset_stack (j : Fin 16) : State.reset.stack[j] = 0x0000 := Vector.getElem_replicate j.isLt

/-- Every key is up after reset (R39). -/
theorem reset_key (k : Fin 16) : State.reset.key[k] = false := Vector.getElem_replicate k.isLt

/-- Every pixel is dark after reset (R39). -/
theorem reset_pixel (px py : Nat) : State.reset.pixel px py = false := pixel_dark px py

/-- Settles O1: the vectors entry by entry, the other pieces as `State.reset` gives them. -/
theorem resetValues : Obligations.ResetValues :=
  ⟨read_empty, reset_getV, reset_stack, rfl, rfl, reset_pixel, rfl, rfl, rfl, rfl, reset_key, rfl, rfl, rfl, rfl, rfl⟩

/-- Settles O56: RESET is the reset state with `run_state` and the model's own fields kept. -/
theorem resetEventRestoresResetValues : Obligations.ResetEventRestoresResetValues := fun s =>
  ⟨s.hostReset, rfl, read_empty, reset_getV, reset_stack, rfl, rfl, reset_pixel, rfl, rfl, rfl, rfl, reset_key, rfl,
    rfl, rfl, rfl, rfl, rfl, rfl, rfl⟩

/-! ### LOAD_ROM and boot -/

/-- LOAD_ROM answers the state after its two halves; the boolean is dropped (R292; log 12). -/
theorem applyEvent_loadRom (bytes : List Byte) (addr : Nat) (s : State) :
    applyEvent (.loadRom bytes addr) s = .next (s.hostReset.hostLoad bytes addr).1 := rfl

/-- LOAD_ROM leaves the reset state but for memory, `run_state` and the model's own fields (R292). -/
theorem hostLoadRom_frame (s : State) (bytes : List Byte) (addr : Nat) :
    (s.hostReset.hostLoad bytes addr).1 = { State.reset with
      mem := (s.hostReset.hostLoad bytes addr).1.mem, runState := s.runState, config := s.config, draws := s.draws,
      schedule := s.schedule } := hostLoad_frame s.hostReset bytes addr

section
variable {bytes : List Byte} {addr : Nat} (s : State)

/-- An image that fits stands in memory, and the rest of memory is 0x00 (R292). -/
theorem hostLoadRom_readByte_of_fits (h : bytes.length + addr ≤ memSize) :
    (∀ (j : Nat) (hj : j < bytes.length), (s.hostReset.hostLoad bytes addr).1.readByte (addr + j) = bytes[j]) ∧
    (∀ a, a < addr ∨ addr + bytes.length ≤ a → (s.hostReset.hostLoad bytes addr).1.readByte a = 0x00) := by
  have hrange : addr + bytes.length ≤ memSize := Nat.add_comm addr _ ▸ h
  rw [hostLoad_fits s.hostReset h]
  refine ⟨fun j hj => State.readByte_writeBytes_inside hrange empty_wf hj, fun a ha => ?outside⟩
  case outside => exact (State.readByte_writeBytes_outside hrange empty_wf ha).trans (read_empty a)

/-- With an image that does not fit all of memory is 0x00 (R292). -/
theorem hostLoadRom_readByte_of_gt (h : memSize < bytes.length + addr) (a : Nat) :
    (s.hostReset.hostLoad bytes addr).1.readByte a = 0x00 := by
  rw [hostLoad_rejected s.hostReset h]
  exact read_empty a

end

/-- Two steps that answer next states, one after the other. -/
theorem run_two {s t u : State} (hfirst : step s = .next t) (hsecond : step t = .next u) :
    Sys2Proof.core.run 2 s = .next u := by
  have hfirst' : Sys2Proof.core.step s = .next t := hfirst
  have hsecond' : Sys2Proof.core.step t = .next u := hsecond
  simp only [Host.Core.run, hfirst', hsecond']

/-- Two steps with LOAD_ROM and SET_RUN scheduled are these two events: the reset state with the memory of the first
and the `run_state` of the second (R294). -/
theorem run_two_boot (bytes : List Byte) (addr : Nat) (r : RunState) (s : State) :
    ∃ u t, u = (State.hostLoad (State.hostReset { s with schedule := [.event (.setRun r)] }) bytes addr).1 ∧
      Sys2Proof.core.run 2 { s with schedule := [.event (.loadRom bytes addr), .event (.setRun r)] } = .next t ∧
      t = { State.reset with mem := t.mem, runState := r, config := s.config, draws := s.draws } ∧ SameMemory u t := by
  have hframe := hostLoadRom_frame { s with schedule := [.event (.setRun r)] } bytes addr
  generalize hu : (State.hostLoad (State.hostReset { s with schedule := [.event (.setRun r)] }) bytes addr).1 = u
    at hframe
  have hfirst : step { s with schedule := [.event (.loadRom bytes addr), .event (.setRun r)] } = .next u := hu ▸ rfl
  have hsecond : step u = .next { u with schedule := [], runState := r } :=
    step_of_event (e := .setRun r) (congrArg State.schedule hframe)
  refine ⟨u, _, rfl, run_two hfirst hsecond, ?frame, sameMemory_of_mem_eq rfl⟩
  case frame => rw [hframe]; rfl

/-- Settles O58: LOAD_ROM in its two halves, and the two steps of the boot. -/
theorem bootMakesTheCoreReady : Obligations.BootMakesTheCoreReady := by
  intro bytes addr s
  refine ⟨hostLoad_success_iff s.hostReset bytes addr,
    ⟨_, applyEvent_loadRom bytes addr s, hostLoadRom_frame s bytes addr, hostLoadRom_readByte_of_fits s,
      hostLoadRom_readByte_of_gt s⟩, ?boot⟩
  case boot =>
    obtain ⟨u, t, hu, hrun, hframe, hmem⟩ := run_two_boot bytes 0x200 .running s
    refine ⟨t, hrun, ?enabled, ?pc, ?schedule, hframe, fun hfit => ?fits, fun hgt a => ?rejected⟩
    case enabled => rw [hframe]; rfl
    case pc => rw [hframe]; rfl
    case schedule => rw [hframe]; rfl
    case fits =>
      have himage : bytes.length + 0x200 ≤ memSize := Nat.add_le_add_right hfit 0x200
      obtain ⟨hinside, houtside⟩ := hostLoadRom_readByte_of_fits _ himage
      rw [← hu] at hinside houtside
      exact ⟨fun j hj => (hmem _).trans (hinside j hj), fun a ha => (hmem a).trans (houtside a ha)⟩
    case rejected =>
      have himage : memSize < bytes.length + 0x200 := Nat.add_lt_add_right hgt 0x200
      rw [hmem a, hu]
      exact hostLoadRom_readByte_of_gt _ himage a

/-! ### KEY_DOWN and TIMER_TICK -/

/-- The registers after the completing half of KEY_DOWN (R264). -/
theorem completeWait_getV (s : State) (k : Nat) (j : RegIndex) :
    (s.completeWait k).getV j = if s.waitKey = true ∧ j = s.waitReg then BitVec.ofNat 8 k else s.getV j := by
  cases hwait : s.waitKey with
  | true =>
    have hset : s.completeWait k = { s.setV s.waitReg (BitVec.ofNat 8 k) with waitKey := false } := if_pos hwait
    have hread : (s.completeWait k).getV j = (s.setV s.waitReg (BitVec.ofNat 8 k)).getV j := by rw [hset]; rfl
    simp [hread, State.getV_setV]
  | false =>
    have hsame : s.completeWait k = s := if_neg (by simp [hwait])
    simp [hsame]

/-- Settles O52: the key pressed, the pending wait completed, the index above 15 refused. -/
theorem keyDownPressesAndCompletes : Obligations.KeyDownPressesAndCompletes := by
  intro k s
  refine ⟨fun hk => ⟨_, applyEvent_keyDown hk s, ?_⟩, fun hk => applyEvent_keyDown_refused hk s⟩
  generalize ht : State.completeWait { s with key := s.key.set k true hk } k = t
  have hframe : t = { s with key := s.key.set k true hk, v := t.v, waitKey := false } := by
    rw [← ht]
    exact completeWait_frame { s with key := s.key.set k true hk } k
  refine ⟨fun j => ?keys, ?wait, fun j => ?registers, ?frame, sameMemory_of_mem_eq ?memory⟩
  case keys => rw [hframe]; simp only [Fin.getElem_fin, Vector.getElem_set, eq_comm]
  case wait => rw [hframe]
  case registers => exact ht ▸ completeWait_getV { s with key := s.key.set k true hk } k j
  case frame => rw [hframe]
  case memory => rw [hframe]

/-- A timer's count on integers: down by one, and a zero stays at zero (R266). -/
theorem tick_toNat (b : Byte) : (tick b).toNat = b.toNat - 1 := by
  unfold tick
  split
  · simp_all
  · have hpos : b.toNat ≠ 0 := fun h0 => ‹¬b = 0x00› (BitVec.eq_of_toNat_eq h0)
    rw [BitVec.toNat_sub_of_le (by rw [BitVec.le_def]; exact Nat.one_le_iff_ne_zero.2 hpos)]
    rfl

/-- Settles O54: each timer counts by itself. -/
theorem timerTickCountsDown : Obligations.TimerTickCountsDown := fun s =>
  ⟨s.hostTimerTick, rfl, tick_toNat s.dt, tick_toNat s.st, rfl, sameMemory_of_mem_eq rfl⟩

end Sys2Proof.Machine
end

section
/-! SUPPORT. What the control transfers do to the whole state, and which fault the check of their new pc takes
(41_control_flow.md R140 to R147; 45_keys_timers.md R230, R231). -/
namespace Sys2Proof.Machine

/-! ### The fault after the check of the new pc -/

section
variable {s : State} (hf : s.fault = .none)
include hf

/-- PcOutOfRange exactly above 0xFFE (R255). -/
theorem checkPc_fault_eq_pcOutOfRange_iff : s.checkPc.fault = .pcOutOfRange ↔ pcMax < s.pc.toNat := by
  obtain ⟨hgt, h⟩ | ⟨hle, -, h⟩ | ⟨hle, -, h⟩ := checkPc_cases s
  · exact iff_of_true (by rw [h, State.raise_fault]) hgt
  · exact iff_of_false (by rw [h, State.raise_fault]; decide) (Nat.not_lt.2 hle)
  · exact iff_of_false (by rw [h, hf]; decide) (Nat.not_lt.2 hle)

/-- PcMisaligned exactly at an odd pc up to 0xFFE (R256). -/
theorem checkPc_fault_eq_pcMisaligned_iff :
    s.checkPc.fault = .pcMisaligned ↔ s.pc.toNat ≤ pcMax ∧ s.pc.toNat % 2 = 1 := by
  obtain ⟨hgt, h⟩ | ⟨hle, hodd, h⟩ | ⟨-, heven, h⟩ := checkPc_cases s
  · exact iff_of_false (by rw [h, State.raise_fault]; decide) (by omega)
  · exact iff_of_true (by rw [h, State.raise_fault]) ⟨hle, hodd⟩
  · exact iff_of_false (by rw [h, hf]; decide) (by omega)

/-- No fault exactly at a legal pc (R255, R256). -/
theorem checkPc_fault_eq_none_iff : s.checkPc.fault = .none ↔ pcLegal s.pc := by
  obtain ⟨hgt, h⟩ | ⟨-, hodd, h⟩ | ⟨hle, heven, h⟩ := checkPc_cases s
  · exact iff_of_false (by rw [h, State.raise_fault]; decide) (fun hpc => Nat.not_lt.2 hpc.2 hgt)
  · exact iff_of_false (by rw [h, State.raise_fault]; decide) (fun hpc => Nat.zero_ne_one (hpc.1.symm.trans hodd))
  · exact iff_of_true (by rw [h, hf]) ⟨heven, hle⟩

end

/-! ### Instructions that write pc alone -/

/-- A write of pc alone: the new pc and the frame. -/
theorem exec_writes_pc {i : Instr} {s : State} {a : Word} (h : exec i s = .next (s.setPc a)) :
    ∃ t, exec i s = .next t ∧ t.pc = a ∧ t = { s with pc := t.pc } ∧ SameMemory s t :=
  ⟨s.setPc a, h, rfl, rfl, sameMemory_of_mem_eq rfl⟩

/-- A skip on the condition `P`: the new pc and the frame (R129). -/
theorem exec_skips {i : Instr} {s : State} {P : Prop} [Decidable P] (h : pcRule s i = .skip (decide P)) :
    ∃ t, exec i s = .next t ∧ t.pc = (if P then s.pc + 4 else s.pc + 2) ∧
      t = { s with pc := t.pc } ∧ SameMemory s t := by
  have hexec := exec_of_skip h
  rw [State.skipIf_eq] at hexec
  simp only [decide_eq_true_eq] at hexec
  exact exec_writes_pc hexec

/-- The pc a skip at a legal pc leaves is even (R129). -/
theorem skip_pc_even {pc : Word} (h : pcLegal pc) (taken : Bool) :
    (if taken then pc + 4 else pc + 2).toNat % 2 = 0 := by
  obtain ⟨heven, -⟩ := h
  cases taken with
  | true =>
    rw [if_pos rfl, BitVec.toNat_add]
    change (pc.toNat + 4) % 65536 % 2 = 0
    omega
  | false =>
    rw [if_neg Bool.false_ne_true, BitVec.toNat_add]
    change (pc.toNat + 2) % 65536 % 2 = 0
    omega

/-- The cycle of a skip faults exactly on a new pc above 0xFFE (R143 to R146, R255). -/
theorem rangeFaultExactly_of_skip {i : Instr} {s : State} {taken : Bool} (h : pcRule s i = .skip taken) :
    RangeFaultExactly s i := by
  intro t hat hstep
  have hf : (s.skipIf taken).fault = .none := hat.fault_eq_none
  cases (step_of_exec hat (exec_of_skip h) hf).symm.trans hstep
  have heven : (s.skipIf taken).pc.toNat % 2 = 0 := skip_pc_even hat.legalPc taken
  rw [checkPc_pc]
  refine ⟨fun hgt => ?range, fun hle => (checkPc_fault_eq_none_iff hf).2 ⟨heven, hle⟩⟩
  case range => rw [checkPc_of_gt hgt]; exact ⟨rfl, rfl⟩

/-- Settles O28: both are skips of their condition. -/
theorem skipOnByte : Obligations.SkipOnByte := by
  intro x kk s
  exact ⟨decodeWord_encode (.seImm x kk), decodeWord_encode (.sneImm x kk), exec_skips rfl, exec_skips rfl,
    rangeFaultExactly_of_skip rfl, rangeFaultExactly_of_skip rfl⟩

/-- A word of format XYF under root 5 or 9 with another last nibble than 0 decodes to nothing (R95). -/
theorem decodeWord_xyn_eq_none (x y : RegIndex) {n : Nibble} (hn : n ≠ 0) :
    decodeWord (0x5#4 ++ x ++ y ++ n) = none ∧ decodeWord (0x9#4 ++ x ++ y ++ n) = none := by
  constructor
  · exact (illegalWordsAreTheSixSets _).2 (.inr (.inl ⟨nibble0_xyn _ _ _ _, by rwa [nibble3_xyn]⟩))
  · exact (illegalWordsAreTheSixSets _).2
      (.inr (.inr (.inr (.inl ⟨nibble0_xyn _ _ _ _, by rwa [nibble3_xyn]⟩))))

/-- Settles O29: both are skips of their condition, which x = y decides. -/
theorem skipOnRegister : Obligations.SkipOnRegister := by
  intro x y s
  refine ⟨decodeWord_encode (.seReg x y), decodeWord_encode (.sneReg x y), fun n => decodeWord_xyn_eq_none x y,
    exec_skips rfl, exec_skips rfl, fun hxy => ?same, rangeFaultExactly_of_skip rfl, rangeFaultExactly_of_skip rfl⟩
  case same =>
    subst hxy
    obtain ⟨t, ht, htpc, -⟩ := exec_skips (i := .seReg x x) (s := s) rfl
    obtain ⟨u, hu, hupc, -⟩ := exec_skips (i := .sneReg x x) (s := s) rfl
    exact ⟨t, u, ht, htpc.trans (if_pos rfl), hu, hupc.trans (if_neg (not_not_intro rfl))⟩

/-- The key a register selects, by the register's value (R236). -/
theorem keyOf_eq (s : State) (x : RegIndex) : keyOf s x = s.key[(s.getV x).toNat % 16] := by
  simp only [keyOf, lowNibble_toNat]

/-- Settles O49: both are skips on the key that the low nibble names. -/
theorem keySkips : Obligations.KeySkips := by
  intro x s
  refine ⟨decodeWord_encode (.skp x), decodeWord_encode (.sknp x), exec_skips ?down, exec_skips ?up,
    rangeFaultExactly_of_skip rfl, rangeFaultExactly_of_skip rfl⟩
  case down => simp [pcRule, keyOf_eq]
  case up => simp [pcRule, keyOf_eq]

/-- `JP addr` writes the zero-extended address to pc (R141). -/
theorem exec_jp (nnn : Addr) (s : State) : exec (.jp nnn) s = .next (s.setPc (addr16 nnn)) := rfl

/-- Settles O25: pc is the zero-extended address, and the check of the new pc reads its value. -/
theorem jumpSetsPc : Obligations.JumpSetsPc := by
  intro nnn s
  refine ⟨decodeWord_encode (.jp nnn), exec_writes_pc (exec_jp nnn s), fun t hat hstep => ?cycle⟩
  case cycle =>
    have hf : (s.setPc (addr16 nnn)).fault = .none := hat.fault_eq_none
    cases (step_of_exec hat (exec_jp nnn s) hf).symm.trans hstep
    have hlast : nnn = 0xFFF ↔ nnn.toNat = 0xFFF := BitVec.toNat_inj.symm
    have hlt := nnn.isLt
    rw [checkPc_fault_eq_pcOutOfRange_iff hf, checkPc_fault_eq_pcMisaligned_iff hf, checkPc_fault_eq_none_iff hf,
      pcLegal, checkPc_pc, State.setPc_pc, addr16_toNat, ne_eq, hlast]
    simp only [pcMax]
    exact ⟨rfl, by omega, by omega, by omega⟩

/-- Settles O30: pc is the sum, which fits in 16 bits. -/
theorem jumpPlusV0SetsPc : Obligations.JumpPlusV0SetsPc := by
  intro nnn s
  obtain ⟨t, hexec, hpc, hframe, hmem⟩ := exec_writes_pc (i := .jpV0 nnn) (s := s) (a := jumpTarget s nnn) rfl
  have hsum : t.pc.toNat = nnn.toNat + (s.getV 0).toNat := hpc ▸ jumpTarget_toNat s nnn
  have hbound : t.pc.toNat ≤ 0x10FE := by
    have hn := nnn.isLt
    have hv := (s.getV 0).isLt
    omega
  exact ⟨decodeWord_encode (.jpV0 nnn), t, hexec, hsum, hbound, hframe, hmem⟩

/-! ### RET and CALL -/

/-- `RET` with a live stack entry (R140). -/
theorem exec_ret_of_pos {s : State} (h : 0 < s.sp.val) : exec .ret s =
    .next { s with sp := ⟨s.sp.val - 1, by omega⟩, pc := s.stack[s.sp.val - 1]'(by omega) } := by
  obtain ⟨h0, -⟩ | ⟨_, hexec⟩ := exec_ret_cases s
  · omega
  · exact hexec

/-- `RET` with an empty stack (R140, R254). -/
theorem exec_ret_of_empty {s : State} (h : s.sp.val = 0) : exec .ret s = .next (s.raise .stackUnderflow s.pc) := by
  obtain ⟨-, hexec⟩ | ⟨hpos, -⟩ := exec_ret_cases s
  · exact hexec
  · omega

/-- `CALL addr` with room on the stack (R142). -/
theorem exec_call_of_lt (nnn : Addr) {s : State} (h : s.sp.val < 16) : exec (.call nnn) s =
    .next { s with stack := s.stack.set s.sp.val (s.pc + 2) h, sp := ⟨s.sp.val + 1, by omega⟩, pc := addr16 nnn } := by
  obtain ⟨hfull, -⟩ | ⟨_, hexec⟩ := exec_call_cases nnn s
  · omega
  · exact hexec

/-- `CALL addr` with a full stack (R142, R253). -/
theorem exec_call_of_full (nnn : Addr) {s : State} (h : s.sp.val = 16) :
    exec (.call nnn) s = .next (s.raise .stackOverflow s.pc) := by
  obtain ⟨-, hexec⟩ | ⟨hlt, -⟩ := exec_call_cases nnn s
  · exact hexec
  · omega

/-- Settles O24: the two branches of RET, and the live entry that the check of the new pc reads. -/
theorem returnPopsTheStack : Obligations.ReturnPopsTheStack := by
  refine ⟨decodeWord_encode .ret, fun s h => ?pops, fun s => exec_ret_of_empty, fun s t hinv hat hsp hstep => ?cycle⟩
  case pops => exact ⟨_, exec_ret_of_pos h, rfl, rfl, rfl, sameMemory_of_mem_eq rfl⟩
  case cycle =>
    have hexec := exec_ret_of_pos hsp
    obtain ⟨heven, hle⟩ := hinv.liveStack ⟨s.sp.val - 1, by omega⟩ (Nat.sub_lt hsp Nat.one_pos)
    generalize hu : ({ s with sp := ⟨s.sp.val - 1, by omega⟩, pc := s.stack[s.sp.val - 1]'(by omega) } : State) = u
      at hexec
    have hf : u.fault = .none := hu ▸ hat.fault_eq_none
    have hpc : u.pc = s.stack[s.sp.val - 1]'(by omega) := hu ▸ rfl
    cases (step_of_exec hat hexec hf).symm.trans hstep
    have hlast : u.pc = 0x1000 ↔ u.pc.toNat = 0x1000 := BitVec.toNat_inj.symm
    rw [ne_eq, checkPc_fault_eq_pcOutOfRange_iff hf, checkPc_fault_eq_pcMisaligned_iff hf, checkPc_pc, hlast, hpc]
    simp only [Fin.getElem_fin] at heven hle
    simp only [pcMax]
    omega

/-- Settles O26: the two branches of CALL; the overflow ends the step, since a fault skips the check of the new pc. -/
theorem callPushesTheStack : Obligations.CallPushesTheStack := by
  intro nnn s
  refine ⟨decodeWord_encode (.call nnn), fun h => ⟨_, exec_call_of_lt nnn h, fun j => ?entries, rfl, rfl, rfl,
    sameMemory_of_mem_eq rfl⟩, fun h => ⟨exec_call_of_full nnn h, fun hat => ?overflow⟩⟩
  case entries => simp only [Fin.getElem_fin, Vector.getElem_set, eq_comm]
  case overflow =>
    rw [step_of_atInstr hat, exec_call_of_full nnn h]
    rfl

/-- Settles O27: the entry RET pops is the one CALL pushed, at the same sp. -/
theorem returnUndoesCall : Obligations.ReturnUndoesCall := by
  intro nnn s t hsp hcall
  cases (exec_call_of_lt nnn hsp).symm.trans hcall
  refine ⟨_, exec_ret_of_pos (Nat.succ_pos _), ?pc, rfl, rfl, fun j hj => ?entries⟩
  case pc => simp
  case entries => simp [Ne.symm hj]

/-! ### The jump to itself -/

/-- The word of a jump to a legal pc (R299). -/
theorem encode_jp_self {pc : Word} (h : pcLegal pc) : encode (.jp (pc.setWidth 12)) = 0x1000 + pc := by
  obtain ⟨-, hle⟩ := h
  apply BitVec.eq_of_toNat_eq
  have happend : (encode (.jp (pc.setWidth 12))).toNat = 0x1000 + pc.toNat % 4096 := by
    change (0x1#4 ++ pc.setWidth 12 : BitVec 16).toNat = _
    rw [BitVec.toNat_append, BitVec.toNat_setWidth]
    exact (Nat.shiftLeft_add_eq_or_of_lt (Nat.mod_lt _ (by decide)) 1).symm
  rw [happend, BitVec.toNat_add]
  change _ = (0x1000 + pc.toNat) % 65536
  simp only [pcMax] at hle
  omega

/-- The low 12 bits of a legal pc, zero-extended, are the pc (R8). -/
theorem addr16_setWidth {pc : Word} (h : pcLegal pc) : addr16 (pc.setWidth 12) = pc := by
  obtain ⟨-, hle⟩ := h
  apply BitVec.eq_of_toNat_eq
  rw [addr16_toNat, BitVec.toNat_setWidth]
  simp only [pcMax] at hle
  omega

/-- A core at a jump to itself runs it (R299). -/
theorem EndedWell.cycle_eq {s : State} (h : EndedWell s) : cycle s = .next s := by
  obtain ⟨-, hfault, -, hpc, hword⟩ := h
  have hdecode : decodeWord (s.readWord s.pc.toNat) = some (.jp (s.pc.setWidth 12)) := by
    rw [hword, ← encode_jp_self hpc, decodeWord_encode]
  have hexec : exec (.jp (s.pc.setWidth 12)) s = .next s := by
    rw [exec_jp, addr16_setWidth hpc]
    rfl
  rw [cycle, fetch_eq hpc.2 hpc.1]
  simp only [hdecode, hexec, settlePc, hfault, if_true, checkPc_legal hpc.2 hpc.1]

/-- Settles O15: the cycle is the jump, which leaves the state; the schedule plays no part in it. -/
theorem jumpToSelfStays : Obligations.JumpToSelfStays := by
  have core (s : State) (h : EndedWell s) : s.enabled = true ∧ coreTurn s = .next s := by
    obtain ⟨hrun, hfault, hwait, -⟩ := id h
    have henabled := (enabled_iff s).2 ⟨hrun, hfault, hwait⟩
    exact ⟨henabled, (coreTurn_eq_cycle henabled).trans h.cycle_eq⟩
  refine fun s h => ⟨(core s h).1, h.cycle_eq, fun rest => ?turn, fun hs => (step_eq_coreTurn hs).trans (core s h).2⟩
  case turn => exact (core { s with schedule := rest } h).2

end Sys2Proof.Machine
end

section
/-! SUPPORT. What the ALU instructions do to the register file (42_alu.md R161 to R171): one destination written, or a
destination and then the flag. -/
namespace Sys2Proof.Machine

/-! ### One destination -/

/-- One register written and pc advanced, with the destination and the other registers apart. -/
theorem exec_writes_destination {i : Instr} {s : State} {x : RegIndex} {a : Byte}
    (h : exec i s = .next (s.setV x a).advance) :
    ∃ t, exec i s = .next t ∧ t.getV x = a ∧ (∀ j, j ≠ x → t.getV j = s.getV j) ∧
      t.pc = s.pc + 2 ∧ t = { s with v := t.v, pc := t.pc } ∧ SameMemory s t := by
  obtain ⟨t, hexec, hv, hrest⟩ := exec_writes_one_register h
  exact ⟨t, hexec, (hv x).trans (if_pos rfl), fun j hj => (hv j).trans (if_neg hj), hrest⟩

/-- Settles O32: the sum of bytes is the sum modulo 256. -/
theorem addByteWrapsWithoutFlag : Obligations.AddByteWrapsWithoutFlag := by
  intro x kk s
  obtain ⟨t, hexec, hx, hrest⟩ :=
    exec_writes_destination (i := .addImm x kk) (s := s) (x := x) (a := s.getV x + kk) rfl
  have hsum : (t.getV x).toNat = ((s.getV x).toNat + kk.toNat) % 256 := by rw [hx, BitVec.toNat_add]
  exact ⟨decodeWord_encode (.addImm x kk), t, hexec, hsum, hrest⟩

/-- An instruction that writes `op` of Vx and Vy to Vx, where `op` acts on each bit by `bit`. -/
theorem exec_writes_bitwise {i : Instr} {s : State} {x y : RegIndex} {op : Byte → Byte → Byte}
    {bit : Bool → Bool → Bool}
    (h : exec i s = .next (s.setV x (op (s.getV x) (s.getV y))).advance)
    (hop : ∀ a b n, (op a b).getLsbD n = bit (a.getLsbD n) (b.getLsbD n)) :
    ∃ t, exec i s = .next t ∧
      (∀ b < 8, (t.getV x).getLsbD b = bit ((s.getV x).getLsbD b) ((s.getV y).getLsbD b)) ∧
      (∀ j, j ≠ x → t.getV j = s.getV j) ∧
      t.pc = s.pc + 2 ∧ t = { s with v := t.v, pc := t.pc } ∧ SameMemory s t := by
  obtain ⟨t, hexec, hx, hrest⟩ := exec_writes_destination h
  exact ⟨t, hexec, fun b _ => by rw [hx, hop], hrest⟩

/-- Settles O33: each of the three acts on every bit. -/
theorem logicIsBitwiseWithoutFlag : Obligations.LogicIsBitwiseWithoutFlag := by
  intro x y s
  exact ⟨decodeWord_encode (.orReg x y), decodeWord_encode (.andReg x y), decodeWord_encode (.xorReg x y),
    exec_writes_bitwise (op := (· ||| ·)) rfl fun _ _ _ => BitVec.getLsbD_or,
    exec_writes_bitwise (op := (· &&& ·)) rfl fun _ _ _ => BitVec.getLsbD_and,
    exec_writes_bitwise (op := (· ^^^ ·)) rfl fun _ _ _ => BitVec.getLsbD_xor⟩

/-- Settles O37: the draw masked by kk stands in Vx, and the counter of draws moves on. -/
theorem randomByteIsMasked : Obligations.RandomByteIsMasked := by
  intro x kk s
  have hx (j : RegIndex) : (s.setV x (Config.rnd s.draws &&& kk)).getV j =
      if j = x then Config.rnd s.draws &&& kk else s.getV j := State.getV_setV s x j _
  refine ⟨decodeWord_encode (.rnd x kk), _, rfl, (hx x).trans (if_pos rfl), fun b _ hb => ?masked,
    fun j hj => (hx j).trans (if_neg hj), rfl, rfl, sameMemory_of_mem_eq rfl⟩
  case masked =>
    refine (congrArg (BitVec.getLsbD · b) ((hx x).trans (if_pos rfl))).trans ?_
    rw [BitVec.getLsbD_and, hb, Bool.and_false]

/-! ### A destination and then the flag -/

/-- A result and then the flag written, and pc advanced (R172). -/
theorem exec_writes_then_flag {i : Instr} {s : State} {x : RegIndex} {a : Byte} {flag : Bool}
    (h : exec i s = .next (s.setVThenFlag x a flag).advance) :
    ∃ t, exec i s = .next t ∧ t.getV 0xF = flagByte flag ∧ (x ≠ 0xF → t.getV x = a) ∧
      (∀ j, j ≠ x → j ≠ 0xF → t.getV j = s.getV j) ∧
      t.pc = s.pc + 2 ∧ t = { s with v := t.v, pc := t.pc } ∧ SameMemory s t := by
  refine ⟨_, h, ?flag, fun hx => ?result, fun j hj hjf => ?others, rfl, rfl, sameMemory_of_mem_eq rfl⟩
  case flag => rw [State.advance_getV, State.getV_setVThenFlag, if_pos rfl]
  case result => rw [State.advance_getV, State.getV_setVThenFlag, if_neg hx, if_pos rfl]
  case others => rw [State.advance_getV, State.getV_setVThenFlag, if_neg hjf, if_neg hj]

/-- A flag computed by a comparison (R23). -/
theorem flagByte_decide (P : Prop) [Decidable P] : flagByte (decide P) = if P then 0x01 else 0x00 := by
  simp [flagByte]

/-- Settles O34: the sum of bytes is the sum modulo 256, and the flag tells whether it exceeded 0xFF. -/
theorem addRegistersSetsCarry : Obligations.AddRegistersSetsCarry := by
  intro x y s
  obtain ⟨t, hexec, hf, hx, hrest⟩ := exec_writes_then_flag (i := .addReg x y) (s := s) (x := x)
    (a := s.getV x + s.getV y) (flag := carryOut (s.getV x) (s.getV y)) rfl
  exact ⟨decodeWord_encode (.addReg x y), t, hexec, hf.trans (flagByte_decide _),
    fun hxf => by rw [hx hxf, BitVec.toNat_add], hrest⟩

/-- The difference of bytes is the difference modulo 256. -/
theorem sub_toNat (a b : Byte) : (a - b).toNat = (a.toNat + 256 - b.toNat) % 256 := by
  rw [BitVec.toNat_sub]
  omega

/-- Settles O35: the difference in either order, and the flag tells whether it was taken without a borrow. -/
theorem subtractsSetNoBorrow : Obligations.SubtractsSetNoBorrow := by
  intro x y s
  refine ⟨decodeWord_encode (.sub x y), decodeWord_encode (.subn x y), ?sub, ?subn⟩
  case sub =>
    obtain ⟨t, hexec, hf, hx, hrest⟩ := exec_writes_then_flag (i := .sub x y) (s := s) (x := x)
      (a := s.getV x - s.getV y) (flag := noBorrow (s.getV x) (s.getV y)) rfl
    exact ⟨t, hexec, hf.trans (flagByte_decide _), fun hxf => by rw [hx hxf, sub_toNat], hrest⟩
  case subn =>
    obtain ⟨t, hexec, hf, hx, hrest⟩ := exec_writes_then_flag (i := .subn x y) (s := s) (x := x)
      (a := s.getV y - s.getV x) (flag := noBorrow (s.getV y) (s.getV x)) rfl
    exact ⟨t, hexec, hf.trans (flagByte_decide _), fun hxf => by rw [hx hxf, sub_toNat], hrest⟩

/-- The bit SHR shifts out is the value modulo 2 (R168). -/
theorem flagByte_lowBit_toNat : ∀ a : Byte, (flagByte (lowBit a)).toNat = a.toNat % 2 := by decide

/-- The bit SHL shifts out is the value divided by 128 (R170). -/
theorem flagByte_highBit_toNat : ∀ a : Byte, (flagByte (highBit a)).toNat = a.toNat / 128 := by decide

/-- A shift right by one place halves (R168). -/
theorem shiftRight_one_toNat (a : Byte) : (a >>> 1).toNat = a.toNat / 2 :=
  (BitVec.toNat_ushiftRight a 1).trans (Nat.shiftRight_eq_div_pow a.toNat 1)

/-- A shift left by one place doubles modulo 256 (R170). -/
theorem shiftLeft_one_toNat (a : Byte) : (a <<< 1).toNat = 2 * a.toNat % 256 := by
  have h : (a <<< 1).toNat = a.toNat * 2 ^ 1 % 2 ^ 8 := by rw [BitVec.toNat_shiftLeft, Nat.shiftLeft_eq]
  omega

/-- Settles O36: the moved value, the bit shifted out, and a y that neither reads. -/
theorem shiftsSetTheBitShiftedOut : Obligations.ShiftsSetTheBitShiftedOut := by
  intro x y s
  refine ⟨decodeWord_encode (.shr x y), decodeWord_encode (.shl x y), ?shr, ?shl, fun y' => ⟨rfl, rfl⟩⟩
  case shr =>
    obtain ⟨t, hexec, hf, hx, hrest⟩ := exec_writes_then_flag (i := .shr x y) (s := s) (x := x)
      (a := s.getV x >>> 1) (flag := lowBit (s.getV x)) rfl
    exact ⟨t, hexec, by rw [hf, flagByte_lowBit_toNat], fun hxf => by rw [hx hxf, shiftRight_one_toNat], hrest⟩
  case shl =>
    obtain ⟨t, hexec, hf, hx, hrest⟩ := exec_writes_then_flag (i := .shl x y) (s := s) (x := x)
      (a := s.getV x <<< 1) (flag := highBit (s.getV x)) rfl
    exact ⟨t, hexec, by rw [hf, flagByte_highBit_toNat], fun hxf => by rw [hx hxf, shiftLeft_one_toNat], hrest⟩

/-! ### The index register and the screen -/

/-- Settles O39: the sum of words is the sum modulo 65536. -/
theorem addIndexWrapsAt16Bits : Obligations.AddIndexWrapsAt16Bits := by
  intro x s
  obtain ⟨t, hexec, hi, hrest⟩ :=
    exec_writes_index (i := .addI x) (s := s) (a := s.i + byte16 (s.getV x)) rfl
  exact ⟨decodeWord_encode (.addI x), t, hexec, by rw [hi, BitVec.toNat_add, byte16_toNat], hrest⟩

/-- Settles O40: the glyph address, which does not wrap. -/
theorem glyphAddressSetsI : Obligations.GlyphAddressSetsI := by
  intro x s
  obtain ⟨t, hexec, hi, hrest⟩ :=
    exec_writes_index (i := .ldF x) (s := s) (a := glyphAddr s.config (s.getV x)) rfl
  exact ⟨decodeWord_encode (.ldF x), t, hexec, by rw [hi, glyphAddr_toNat], hrest⟩

/-- Settles O46: each of the three puts the dark buffer, and LOW and HIGH a mode too. -/
theorem screenInstructionsClear : Obligations.ScreenInstructionsClear := fun _ =>
  ⟨decodeWord_encode .cls, decodeWord_encode .low, decodeWord_encode .high,
    ⟨_, rfl, pixel_dark, rfl, rfl, sameMemory_of_mem_eq rfl⟩,
    ⟨_, rfl, pixel_dark, rfl, rfl, rfl, sameMemory_of_mem_eq rfl⟩,
    ⟨_, rfl, pixel_dark, rfl, rfl, rfl, sameMemory_of_mem_eq rfl⟩⟩

/-! ### The sound timer -/

/-- An instruction that accesses memory at I does not read ST when what it does inside the range does not (R28). -/
theorem st_unread_of_access {i : Instr} {n : Nat} {f : State → State} {s t : State} (b : Byte)
    (hn : accessCount i = some n) (hexec : ∀ u : State, rangeOk u.i n = true → exec i u = .next (f u))
    (hf : { f { s with st := b } with st := 0 } = { f s with st := 0 }) (h : exec i s = .next t) :
    ∃ t', exec i { s with st := b } = .next t' ∧ { t' with st := 0 } = { t with st := 0 } := by
  cases hok : rangeOk s.i n with
  | true =>
    cases (hexec s hok).symm.trans h
    exact ⟨_, hexec { s with st := b } hok, hf⟩
  | false =>
    cases (exec_of_rangeOk_false hn hok).symm.trans h
    exact ⟨_, exec_of_rangeOk_false (s := { s with st := b }) hn hok, rfl⟩

/-- Settles O14: every instruction does the same in the two states; those with two branches take the same one. -/
theorem soundTimerIsReadByNothing : Obligations.SoundTimerIsReadByNothing := by
  intro i s t b h
  cases i with
  | drw x y n => exact st_unread_of_access b rfl (fun _ => exec_drw_of_rangeOk x y) rfl h
  | ldB x => exact st_unread_of_access b rfl (fun _ => exec_ldB_of_rangeOk x) rfl h
  | storeRegs => exact st_unread_of_access b rfl (fun _ => exec_storeRegs_of_rangeOk) rfl h
  | loadRegs => exact st_unread_of_access b rfl (fun _ => exec_loadRegs_of_rangeOk) rfl h
  | ret =>
    rcases Nat.eq_zero_or_pos s.sp.val with hsp | hsp
    · cases (exec_ret_of_empty hsp).symm.trans h
      exact ⟨_, exec_ret_of_empty (s := { s with st := b }) hsp, rfl⟩
    · cases (exec_ret_of_pos hsp).symm.trans h
      exact ⟨_, exec_ret_of_pos (s := { s with st := b }) hsp, rfl⟩
  | call nnn =>
    rcases Nat.eq_or_lt_of_le (Nat.le_of_lt_succ s.sp.isLt) with hsp | hsp
    · cases (exec_call_of_full nnn hsp).symm.trans h
      exact ⟨_, exec_call_of_full nnn (s := { s with st := b }) hsp, rfl⟩
    · cases (exec_call_of_lt nnn hsp).symm.trans h
      exact ⟨_, exec_call_of_lt nnn (s := { s with st := b }) hsp, rfl⟩
  | _ => cases h; exact ⟨_, rfl, rfl⟩

end Sys2Proof.Machine
end

section
/-! SUPPORT. What the digits and the block transfers put where (43_index_memory.md R193 to R195, 20_memory.md R71), and
the key wait (45_keys_timers.md R233). -/
namespace Sys2Proof.Machine

/-! ### Ranges -/

/-- Three bytes at I with I + 2 at most 0xFFF pass the range check (R65). -/
theorem rangeOk_three {base : Word} (h : base.toNat + 2 ≤ 0xFFF) : rangeOk base 3 = true :=
  (rangeOk_iff base 3).2 (.inr h)

/-- The block of V0 to Vx with I + x at most 0xFFF passes the range check (R65). -/
theorem rangeOk_block {base : Word} {x : RegIndex} (h : base.toNat + x.toNat ≤ 0xFFF) :
    rangeOk base (blockCount x) = true :=
  (rangeOk_iff base (blockCount x)).2 (.inr h)

/-! ### The three digits -/

/-- The decimal digits of a byte, as bytes (R193). -/
theorem bcdDigits_toNat (b : Byte) : (BitVec.ofNat 8 (b.toNat / 100)).toNat = b.toNat / 100 ∧
    (BitVec.ofNat 8 (b.toNat / 10 % 10)).toNat = b.toNat / 10 % 10 ∧
    (BitVec.ofNat 8 (b.toNat % 10)).toNat = b.toNat % 10 := by
  have hlt := b.isLt
  simp only [BitVec.toNat_ofNat]
  omega

/-- Settles O41: the three digits are written in order, and nothing outside them. -/
theorem bcdStoresThreeDigits : Obligations.BcdStoresThreeDigits := by
  intro x s
  refine ⟨decodeWord_encode (.ldB x), fun h => ⟨_, exec_ldB_of_rangeOk x (rangeOk_three h), fun hm => ?bytes, rfl, rfl⟩⟩
  case bytes =>
    have hrange : s.i.toNat + (bcdDigits (s.getV x)).length ≤ memSize := Nat.succ_le_succ h
    obtain ⟨hhundreds, htens, hones⟩ := bcdDigits_toNat (s.getV x)
    have inside {j : Nat} (hj : j < 3) := State.readByte_writeBytes_inside hrange hm hj
    refine ⟨?_, ?_, ?_, fun a ha => ?outside⟩
    · exact (congrArg BitVec.toNat (inside (j := 0) (by decide))).trans hhundreds
    · exact (congrArg BitVec.toNat (inside (j := 1) (by decide))).trans htens
    · exact (congrArg BitVec.toNat (inside (j := 2) (by decide))).trans hones
    case outside => exact State.readByte_writeBytes_outside hrange hm (ha.imp_right Nat.succ_le_of_lt)

/-! ### The block transfers -/

section
variable {s : State} {x : RegIndex} (h : s.i.toNat + x.toNat ≤ 0xFFF) (hm : s.mem.wf = true)
include h hm

/-- After a block store Vk stands at I + k (R194). -/
theorem readByte_stored {k : RegIndex} (hk : k.toNat ≤ x.toNat) :
    (s.writeBytes s.i.toNat (blockRegs s x)).readByte (s.i.toNat + k.toNat) = s.getV k := by
  have hlen := blockRegs_length s x
  rw [State.readByte_writeBytes (by rw [hlen]; exact Nat.succ_le_succ h) hm, if_pos (by omega), Nat.add_sub_cancel_left,
    blockRegs_getD s x k hk]

/-- A block store leaves every byte outside the block (R194). -/
theorem readByte_not_stored {a : Nat} (ha : a < s.i.toNat ∨ s.i.toNat + x.toNat < a) :
    (s.writeBytes s.i.toNat (blockRegs s x)).readByte a = s.readByte a := by
  have hlen := blockRegs_length s x
  exact State.readByte_writeBytes_outside (by rw [hlen]; exact Nat.succ_le_succ h) hm (by omega)

end

/-- Settles O42: the registers are written in order, and nothing outside them. -/
theorem blockStoreWritesV0ToVx : Obligations.BlockStoreWritesV0ToVx := by
  intro x s
  exact ⟨decodeWord_encode (.storeRegs x), fun h => ⟨_, exec_storeRegs_of_rangeOk (rangeOk_block h),
    fun hm => ⟨fun _ => readByte_stored h hm, fun _ => readByte_not_stored h hm⟩, rfl, rfl⟩⟩

/-- Settles O43: the register file after the load, entry by entry. -/
theorem blockLoadReadsV0ToVx : Obligations.BlockLoadReadsV0ToVx := by
  intro x s
  exact ⟨decodeWord_encode (.loadRegs x), fun h => ⟨_, exec_loadRegs_of_rangeOk (rangeOk_block h), loadBlock_getV s x,
    rfl, rfl, sameMemory_of_mem_eq rfl⟩⟩

/-- Settles O44: the load reads at I + k the byte that the store put there. -/
theorem blockLoadUndoesBlockStore : Obligations.BlockLoadUndoesBlockStore := by
  intro x s t w hm h hstore
  have hok := rangeOk_block h
  cases (exec_storeRegs_of_rangeOk hok).symm.trans hstore
  generalize hu : ({ (s.writeBytes s.i.toNat (blockRegs s x)).advance with v := w } : State) = u
  have hui : u.i = s.i := hu ▸ rfl
  refine ⟨_, exec_loadRegs_of_rangeOk (hui ▸ hok), fun k hk => ?_⟩
  calc ({ u with v := loadBlock u x } : State).getV k
      = u.readByte (u.i.toNat + k.toNat) := (loadBlock_getV u x k).trans (if_pos hk)
    _ = (s.writeBytes s.i.toNat (blockRegs s x)).readByte (s.i.toNat + k.toNat) := by rw [hui, ← hu]; rfl
    _ = s.getV k := readByte_stored h hm hk

/-- Settles O16: the step is the store, and the next fetch reads the two bytes it put there. -/
theorem storeIsSeenByTheNextFetch : Obligations.StoreIsSeenByTheNextFetch := by
  intro s t x j k hat hm h hpc hjk hk haddr hstep
  have hexec := exec_storeRegs_of_rangeOk (rangeOk_block h)
  have hnext : (s.pc + 2).toNat = s.pc.toNat + 2 := by
    rw [BitVec.toNat_add]
    change (s.pc.toNat + 2) % 65536 = s.pc.toNat + 2
    omega
  have heven : (s.pc + 2).toNat % 2 = 0 := hat.legalPc.next_toNat.1
  have hle : (s.pc + 2).toNat ≤ pcMax := by rw [hnext]; exact hpc
  have hstored := step_of_exec hat hexec hat.fault_eq_none
  rw [checkPc_legal hle heven] at hstored
  cases hstored.symm.trans hstep
  have hhigh := readByte_stored h hm (k := j) (by omega)
  have hlow := readByte_stored h hm hk
  rw [haddr, ← hnext] at hhigh
  rw [hjk, ← Nat.add_assoc, haddr, ← hnext] at hlow
  rw [fetch_eq hle heven, State.advance_pc, State.writeBytes_pc, State.readWord, State.advance_readByte,
    State.advance_readByte, hhigh, hlow]

/-! ### The key wait -/

/-- `LD Vx, K` sets the wait, records x and advances pc (R233). -/
theorem exec_ldVxK (x : RegIndex) (s : State) :
    exec (.ldVxK x) s = .next { s with waitKey := true, waitReg := x }.advance := rfl

/-- A waiting core has no cycle (R127). -/
theorem enabled_of_wait {s : State} (h : s.waitKey = true) : s.enabled = false := by
  simp [State.enabled, h]

/-- KEY_DOWN ends a wait and puts the key into the waiting register (R264). -/
theorem keyDown_completes {s : State} {k : Nat} (hw : s.waitKey = true) (hk : k < 16) :
    ∃ u, applyEvent (.keyDown k) s = .next u ∧ u.waitKey = false ∧ (u.getV s.waitReg).toNat = k ∧ u.pc = s.pc := by
  obtain ⟨u, hu, -, hwait, hv, hframe, -⟩ := (keyDownPressesAndCompletes k s).1 hk
  refine ⟨u, hu, hwait, ?key, by rw [hframe]⟩
  case key =>
    rw [hv, if_pos ⟨hw, rfl⟩, BitVec.toNat_ofNat]
    omega

/-- Settles O51: the wait disables the core, KEY_DOWN completes it, and the other events keep it. -/
theorem keyWaitHoldsUntilKeyDown : Obligations.KeyWaitHoldsUntilKeyDown := by
  intro x s
  refine ⟨decodeWord_encode (.ldVxK x), _, exec_ldVxK x s, rfl, rfl, rfl, rfl, sameMemory_of_mem_eq rfl, ?idle,
    fun k hk => keyDown_completes (s := { s with waitKey := true, waitReg := x }.advance) rfl hk,
    fun k r u h => ?others⟩
  case idle =>
    rw [step_eq_coreTurn rfl]
    exact coreTurn_of_disabled (enabled_of_wait rfl)
  case others =>
    rcases h with h | h | h <;> exact (applyEvent_next h).wait_of_not_keyDown rfl (by simp)

end Sys2Proof.Machine
end

section
/-! SUPPORT. The draw loop of 44_display.md R213 in closed form: it plots the points under the sprite's set bits, which
are distinct because a sprite is 8 columns by at most 15 rows and wraps on a screen of at least 64 by 32. -/
namespace Sys2Proof.Machine

/-! ### Plotting distinct points -/

/-- One point plotted (R213). -/
def plotPoint (d : DrawState) (p : Nat × Nat) : DrawState := plot d p.1 p.2

/-- The point lies in the buffer (R29). -/
def InBuffer (p : Nat × Nat) : Prop := p.1 < 128 ∧ p.2 < 64

/-- One plotted point inverts its pixel alone (R213). -/
theorem plotPoint_pixel (d : DrawState) {p : Nat × Nat} (hp : InBuffer p) (q : Nat × Nat) :
    (plotPoint d p).fb.pixel q.1 q.2 = (d.fb.pixel q.1 q.2 ^^ decide (q = p)) := by
  rw [plotPoint, plot_pixel d hp.1 hp.2]
  simp only [Prod.ext_iff]

/-- Plotting distinct points inverts exactly their pixels. -/
theorem foldl_plotPoint_pixel {l : List (Nat × Nat)} (hl : l.Nodup) (hb : ∀ p ∈ l, InBuffer p) (d : DrawState)
    (q : Nat × Nat) : (l.foldl plotPoint d).fb.pixel q.1 q.2 = (d.fb.pixel q.1 q.2 ^^ decide (q ∈ l)) := by
  induction l generalizing d with
  | nil => simp
  | cons p l ih =>
    obtain ⟨hp, hl⟩ := List.nodup_cons.1 hl
    obtain ⟨hbp, hb⟩ := List.forall_mem_cons.1 hb
    rw [List.foldl_cons, ih hl hb, plotPoint_pixel d hbp]
    by_cases hq : q = p
    · subst hq; simp [hp]
    · simp [hq]

/-- Plotting distinct points notes a collision exactly when one of them was lit before. -/
theorem foldl_plotPoint_coll {l : List (Nat × Nat)} (hl : l.Nodup) (hb : ∀ p ∈ l, InBuffer p) (d : DrawState) :
    (l.foldl plotPoint d).coll = true ↔ d.coll = true ∨ ∃ p ∈ l, d.fb.pixel p.1 p.2 = true := by
  induction l generalizing d with
  | nil => simp
  | cons p l ih =>
    obtain ⟨hp, hl⟩ := List.nodup_cons.1 hl
    obtain ⟨hbp, hb⟩ := List.forall_mem_cons.1 hb
    have hrest : ∀ q ∈ l, (plotPoint d p).fb.pixel q.1 q.2 = d.fb.pixel q.1 q.2 := by
      intro q hq
      have hne : q ≠ p := fun heq => hp (heq ▸ hq)
      rw [plotPoint_pixel d hbp, decide_eq_false hne, Bool.xor_false]
    have hfirst : (plotPoint d p).coll = (d.coll || d.fb.pixel p.1 p.2) := rfl
    have hlit : (∃ q ∈ l, (plotPoint d p).fb.pixel q.1 q.2 = true) ↔ ∃ q ∈ l, d.fb.pixel q.1 q.2 = true :=
      exists_congr fun q => and_congr_right fun hq => by rw [hrest q hq]
    rw [List.foldl_cons, ih hl hb, hfirst, hlit, Bool.or_eq_true, or_assoc]
    simp only [List.mem_cons, exists_eq_or_imp]

/-! ### The points of a sprite -/

/-- The columns of a row that a set bit draws, bit 7 leftmost (R213). -/
def spriteColumns (b : Byte) : List Nat := (List.range 8).filter fun c => b.getLsbD (7 - c)

/-- The points of one sprite row, wrapped to the active screen. -/
def spriteRow (s : State) (x0 y0 r : Nat) : List (Nat × Nat) :=
  (spriteColumns (s.readByte (s.i.toNat + r))).map fun c => ((x0 + c) % s.mode.width, (y0 + r) % s.mode.height)

/-- The points of an n-row sprite, in the order of the loop. -/
def spritePoints (s : State) (x0 y0 n : Nat) : List (Nat × Nat) := (List.range n).flatMap (spriteRow s x0 y0)

/-- The draw loop plots the sprite's points one after the other (R213). -/
theorem drawSprite_eq_foldl (s : State) (x0 y0 n : Nat) :
    drawSprite s x0 y0 n = (spritePoints s x0 y0 n).foldl plotPoint { fb := s.fb, coll := false } := by
  simp only [spritePoints, spriteRow, spriteColumns, List.foldl_flatMap, List.foldl_map, List.foldl_filter]
  rfl

/-- The columns a row draws are among the eight. -/
theorem mem_spriteColumns {b : Byte} {c : Nat} : c ∈ spriteColumns b ↔ c < 8 ∧ b.getLsbD (7 - c) = true := by
  simp [spriteColumns]

/-- The sprite's points are the pixels it covers (R213). -/
theorem mem_spritePoints (s : State) (x0 y0 n px py : Nat) :
    (px, py) ∈ spritePoints s x0 y0 n ↔ SpriteCovers s x0 y0 n px py := by
  simp only [spritePoints, spriteRow, List.mem_flatMap, List.mem_map, List.mem_range, mem_spriteColumns, Prod.mk.injEq,
    SpriteCovers]
  constructor
  · rintro ⟨r, hr, c, ⟨hc, hbit⟩, hx, hy⟩
    exact ⟨r, c, hr, hc, hbit, hx.symm, hy.symm⟩
  · rintro ⟨r, c, hr, hc, hbit, hx, hy⟩
    exact ⟨r, hr, c, ⟨hc, hbit⟩, hx.symm, hy.symm⟩

/-- The sprite's points lie in the buffer (R214). -/
theorem spritePoints_inBuffer (s : State) (x0 y0 n : Nat) : ∀ p ∈ spritePoints s x0 y0 n, InBuffer p := by
  rintro ⟨px, py⟩ hp
  obtain ⟨r, c, -, -, -, rfl, rfl⟩ := (mem_spritePoints s x0 y0 n px py).1 hp
  exact ⟨Nat.lt_of_lt_of_le (Nat.mod_lt _ s.mode.width_pos) s.mode.width_le,
    Nat.lt_of_lt_of_le (Nat.mod_lt _ s.mode.height_pos) s.mode.height_le⟩

/-- An offset below the modulus wraps at most once. -/
theorem add_mod_eq_ite {m b : Nat} (a : Nat) (hb : b < m) :
    (a + b) % m = if a % m + b < m then a % m + b else a % m + b - m := by
  have ha : a % m < m := Nat.mod_lt a (Nat.zero_lt_of_lt hb)
  rw [← Nat.mod_add_mod a m b]
  split
  · exact Nat.mod_eq_of_lt ‹_›
  · rw [Nat.mod_eq_sub_mod (Nat.not_lt.1 ‹_›), Nat.mod_eq_of_lt (by omega)]

/-- Offsets below the modulus stay apart when wrapped. -/
theorem add_mod_injective {m a b c : Nat} (hb : b < m) (hc : c < m) (h : (a + b) % m = (a + c) % m) : b = c := by
  have ha : a % m < m := Nat.mod_lt a (Nat.zero_lt_of_lt hb)
  rw [add_mod_eq_ite a hb, add_mod_eq_ite a hc] at h
  split at h <;> split at h <;> omega

/-- Eight columns fit the active width. -/
theorem ScreenMode.eight_le_width (m : ScreenMode) : 8 ≤ m.width := by cases m <;> decide

/-- Fifteen rows fit the active height. -/
theorem ScreenMode.fifteen_lt_height (m : ScreenMode) : 15 < m.height := by cases m <;> decide

/-- The points of one row are distinct: eight columns do not wrap onto each other. -/
theorem spriteRow_nodup (s : State) (x0 y0 r : Nat) : (spriteRow s x0 y0 r).Nodup := by
  refine List.pairwise_map.2 ((List.pairwise_lt_range.filter _).imp_of_mem fun {c c'} hc hc' hlt h => ?_)
  have hw := s.mode.eight_le_width
  have hcolumn := add_mod_injective (Nat.lt_of_lt_of_le (mem_spriteColumns.1 hc).1 hw)
    (Nat.lt_of_lt_of_le (mem_spriteColumns.1 hc').1 hw) (Prod.mk.inj h).1
  exact Nat.ne_of_lt hlt hcolumn

/-- The points of a sprite are distinct: its rows do not wrap onto each other either. -/
theorem spritePoints_nodup (s : State) (x0 y0 : Nat) {n : Nat} (hn : n ≤ s.mode.height) :
    (spritePoints s x0 y0 n).Nodup := by
  refine List.pairwise_flatMap.2 ⟨fun r _ => spriteRow_nodup s x0 y0 r,
    List.pairwise_lt_range.imp_of_mem fun {r r'} hr hr' hlt p hp q hq heq => ?_⟩
  simp only [spriteRow, List.mem_map] at hp hq
  obtain ⟨c, -, rfl⟩ := hp
  obtain ⟨c', -, rfl⟩ := hq
  have hrow := add_mod_injective (Nat.lt_of_lt_of_le (List.mem_range.1 hr) hn)
    (Nat.lt_of_lt_of_le (List.mem_range.1 hr') hn) (Prod.mk.inj heq).2
  exact Nat.ne_of_lt hlt hrow

/-! ### The draw in closed form -/

section
variable (s : State) (x0 y0 : Nat) {n : Nat} (hn : n ≤ s.mode.height)
include hn

/-- A draw changes exactly the pixels the sprite covers (R213). -/
theorem drawSprite_pixel_ne_iff (px py : Nat) :
    (drawSprite s x0 y0 n).fb.pixel px py ≠ s.pixel px py ↔ SpriteCovers s x0 y0 n px py := by
  have h := foldl_plotPoint_pixel (spritePoints_nodup s x0 y0 hn) (spritePoints_inBuffer s x0 y0 n)
    { fb := s.fb, coll := false } (px, py)
  rw [drawSprite_eq_foldl, h, ← mem_spritePoints, State.pixel]
  by_cases hmem : (px, py) ∈ spritePoints s x0 y0 n <;> simp [hmem]

/-- A draw notes a collision exactly when a pixel under the sprite was lit (R213). -/
theorem drawSprite_coll_iff : (drawSprite s x0 y0 n).coll = true ↔
    ∃ px py, s.pixel px py = true ∧ SpriteCovers s x0 y0 n px py := by
  rw [drawSprite_eq_foldl, foldl_plotPoint_coll (spritePoints_nodup s x0 y0 hn) (spritePoints_inBuffer s x0 y0 n)]
  simp only [Bool.false_eq_true, false_or, Prod.exists, mem_spritePoints, and_comm]
  rfl

end

/-- A flag is 0x01 exactly when it is set (R23). -/
theorem flagByte_eq_one_iff (b : Bool) : flagByte b = 0x01 ↔ b = true := by revert b; decide

/-- A flag is 0x01 or 0x00 (R23). -/
theorem flagByte_cases (b : Bool) : flagByte b = 0x01 ∨ flagByte b = 0x00 := by revert b; decide

/-- Settles O47: the loop plots the points under the sprite, which are distinct. -/
theorem drawXorsTheSprite : Obligations.DrawXorsTheSprite := by
  intro x y n s
  refine ⟨decodeWord_encode (.drw x y n), fun h => ?draw⟩
  case draw =>
    have hok : rangeOk s.i n.toNat = true := (rangeOk_iff s.i n.toNat).2 (h.imp_left fun h0 => by rw [h0]; rfl)
    have hn : n.toNat ≤ s.mode.height := by
      have hheight := s.mode.fifteen_lt_height
      have hlt := n.isLt
      omega
    have hv (j : RegIndex) :=
      State.getV_setV { s with fb := (drawSprite s (s.getV x).toNat (s.getV y).toNat n.toNat).fb } vf j
        (flagByte (drawSprite s (s.getV x).toNat (s.getV y).toNat n.toNat).coll)
    have hvf := (hv 0xF).trans (if_pos rfl)
    refine ⟨_, exec_drw_of_rangeOk x y hok, drawSprite_pixel_ne_iff s _ _ hn, ?collision, ?flag,
      fun j hj => (hv j).trans (if_neg hj), rfl, rfl, sameMemory_of_mem_eq rfl⟩
    case collision =>
      rw [State.advance_getV, hvf, flagByte_eq_one_iff]
      exact drawSprite_coll_iff s _ _ hn
    case flag =>
      rw [State.advance_getV, hvf]
      exact flagByte_cases _

/-- A draw that raised no fault was inside memory (R65). -/
theorem range_of_drw_no_fault {x y : RegIndex} {n : Nibble} {s t : State} (h : exec (.drw x y n) s = .next t)
    (hf : t.fault = .none) : n = 0 ∨ s.i.toNat + n.toNat - 1 ≤ 0xFFF := by
  cases hok : rangeOk s.i n.toNat with
  | true => exact ((rangeOk_iff s.i n.toNat).1 hok).imp_left fun h0 => BitVec.eq_of_toNat_eq h0
  | false =>
    cases (exec_of_rangeOk_false (i := .drw x y n) rfl hok).symm.trans h
    cases hf

/-- The sprite covers the same pixels in two states with the same memory, I and mode. -/
theorem spriteCovers_congr {s t : State} (hmem : SameMemory s t) (hi : t.i = s.i) (hmode : t.mode = s.mode)
    (x0 y0 n px py : Nat) : SpriteCovers t x0 y0 n px py ↔ SpriteCovers s x0 y0 n px py := by
  simp only [SpriteCovers, hmem _, hi, hmode]

/-- Settles O48: the second draw covers the same pixels and changes each of them back. -/
theorem drawTwiceRestores : Obligations.DrawTwiceRestores := by
  intro x y n s t u hx hy _ hdraw hf hagain
  have hrange := range_of_drw_no_fault hdraw hf
  obtain ⟨t', ht, hpixel, hcoll, hflag, hv, -, hframe, hmem⟩ := (drawXorsTheSprite x y n s).2 hrange
  cases ht.symm.trans hdraw
  have hi : t.i = s.i := by rw [hframe]
  have hmode : t.mode = s.mode := by rw [hframe]
  obtain ⟨u', hu, hpixel', hcoll', -⟩ := (drawXorsTheSprite x y n t).2 (hi ▸ hrange)
  cases hu.symm.trans hagain
  simp only [spriteCovers_congr hmem hi hmode, hv x hx, hv y hy] at hpixel' hcoll'
  refine ⟨fun px py => ?restored, fun hdark => ⟨?dark, hcoll'.trans ?overlap⟩⟩
  case restored =>
    have hboth : u.pixel px py ≠ t.pixel px py ↔ t.pixel px py ≠ s.pixel px py :=
      (hpixel' px py).trans (hpixel px py).symm
    revert hboth
    cases u.pixel px py <;> cases t.pixel px py <;> cases s.pixel px py <;> decide
  case dark =>
    refine hflag.resolve_left fun hone => ?_
    obtain ⟨px, py, hlit, -⟩ := hcoll.1 hone
    exact absurd hlit (by simp [hdark])
  case overlap =>
    refine exists_congr fun px => exists_congr fun py => and_iff_right_of_imp fun hcovers => ?_
    have hchanged : t.pixel px py ≠ s.pixel px py := (hpixel px py).2 hcovers
    simpa [hdark] using hchanged

end Sys2Proof.Machine
end
